-- ==== Sys2Proof/Word.lean ====
section
/-! DEFINITION. The word types of the block (00_scope R9: every value is unsigned). -/

namespace Sys2Proof

/-- A general register, a byte of memory, a timer (10_state R20, R26, R27; 20_memory R50). -/
abbrev Byte := BitVec 8

/-- An instruction word, `pc`, `I` or a stack slot (10_state R22, R24, R25; 30_encoding R70). -/
abbrev Word := BitVec 16

/-- The 12-bit address field `nnn` (30_encoding R71, R73). -/
abbrev Addr := BitVec 12

/-- A register index 0..15, the fields `x` and `y` (30_encoding R71, R73). -/
abbrev Reg := Fin 16

/-- A natural 0..15, the field `n` (30_encoding R73). -/
abbrev Nibble := Fin 16

end Sys2Proof
end

