-- ==== Sys2Proof/Config.lean ====
section
/-! DEFINITION. What an implementation fixes (00_scope R7) and the free inputs of a step (10_state R35). -/

namespace Sys2Proof

/-- The two readings of a flag-writing instruction whose operand is VF (41_register_alu R131).
`sequential`: the steps run in the listed order, the flag first, and a later read sees the new VF.
`operandsFirst`: every operand is read before any write, and the flag is written last. -/
inductive VfAlias where
  | sequential
  | operandsFirst
  deriving DecidableEq, Repr

/-- The parameters of 00_scope R7 that the source leaves open and that change what an instruction, a decode or the
glyph load does. A value of this type is carried in the state and no step changes it (log entry 3, DESIGN CHOICE), so a
statement about every state holds for every setting. -/
structure Config where
  /-- `VF_ALIAS` (92 D1). -/
  vfAlias : VfAlias
  /-- `LOOSE_5_9` (92 D16, 30_encoding R76). -/
  loose59 : Bool
  /-- `CLS_REDRAW` (92 D13, 44_display R231). -/
  clsRedraw : Bool
  /-- `W`, the framebuffer's width in pixels (92 D19). -/
  width : Nat
  /-- `H`, the framebuffer's height in pixels (92 D19). -/
  height : Nat
  /-- `FONT`, the `FONT_SIZE` = 80 bytes `loadGlyphs` writes (92 D20, 10_state R38, R40). -/
  font : Vector Byte 80
  /-- The stack slot width in bits (92 D21, 10_state R24). -/
  slotWidth : Nat
  deriving DecidableEq, Repr

/-- The keypad snapshot the host supplies to the step with this number when the model's input queue holds none:
a free input under no law (10_state R35; log entry 1). No body: nothing can be proved of its values. -/
opaque Config.hostKeys : Nat → BitVec 16

/-- The random byte supplied to the step with this number when the model's input queue holds none: a free input
under no law (41_register_alu R143, 92 D15; log entry 1). No body: nothing can be proved of its values. -/
opaque Config.hostRandom : Nat → Byte

/-- `MEM_SIZE`: addresses 0x000..0xFFF (00_scope R7, 20_memory R50). -/
abbrev memSize : Nat := 4096

/-- `PROG_BASE`: where the program image is loaded and where execution starts (00_scope R7). -/
abbrev progBase : Nat := 0x200

/-- `FLAG_REG`: VF, the flags register (00_scope R7, 10_state R21). -/
abbrev flagReg : Reg := 15

end Sys2Proof
end

