-- ==== Sys2Proof/Machine/Params.lean ====
section
/-! DEFINITION. The default values of the parameters (00_scope R7) and the font (10_state R40). -/

namespace Sys2Proof.Machine

/-- The 80 bytes `FONT`, five per hexadecimal digit, top row first (10_state R38, R40). UNVERIFIED, general
knowledge the spec supplies (D20; log entry 5): unsafe. -/
def fontBytes : List Byte :=
  [0xF0, 0x90, 0x90, 0x90, 0xF0] ++ [0x20, 0x60, 0x20, 0x20, 0x70] ++  -- 0 1
  [0xF0, 0x10, 0xF0, 0x80, 0xF0] ++ [0xF0, 0x10, 0xF0, 0x10, 0xF0] ++  -- 2 3
  [0x90, 0x90, 0xF0, 0x10, 0x10] ++ [0xF0, 0x80, 0xF0, 0x10, 0xF0] ++  -- 4 5
  [0xF0, 0x80, 0xF0, 0x90, 0xF0] ++ [0xF0, 0x10, 0x20, 0x40, 0x40] ++  -- 6 7
  [0xF0, 0x90, 0xF0, 0x90, 0xF0] ++ [0xF0, 0x90, 0xF0, 0x10, 0xF0] ++  -- 8 9
  [0xF0, 0x90, 0xF0, 0x90, 0x90] ++ [0xE0, 0x90, 0xE0, 0x90, 0xE0] ++  -- A B
  [0xF0, 0x80, 0x80, 0x80, 0xF0] ++ [0xE0, 0x90, 0x90, 0x90, 0xE0] ++  -- C D
  [0xF0, 0x80, 0xF0, 0x80, 0xF0] ++ [0xF0, 0x80, 0xF0, 0x80, 0x80]     -- E F

/-- The defaults of 00_scope R7: `VF_ALIAS` = Sequential, `LOOSE_5_9` = false, `CLS_REDRAW` = false, 64 × 32 pixels, the
standard font, stack slots of 16 bits. UNVERIFIED, the spec's decisions D1, D16, D13, D19, D20 and D21 (log entries 4,
5 and 18): unsafe. -/
def defaultConfig : Config where
  vfAlias := .sequential
  loose59 := false
  clsRedraw := false
  width := 64
  height := 32
  font := ⟨⟨fontBytes⟩, rfl⟩
  slotWidth := 16

end Sys2Proof.Machine
end

