-- ==== Sys2Proof/Syntax.lean ====
section
/-! DEFINITION. The instructions: one constructor per row of spec/opcode_table.json (30_encoding R74), the
unknown-word row among them. -/

namespace Sys2Proof

/-- An instruction with its fields extracted (30_encoding R71, R72, R87). -/
inductive Instr where
  /-- `00E0` CLS (44_display R231). -/
  | cls
  /-- `00EE` RET (40_control_flow R101). -/
  | ret
  /-- `0nnn` SYS nnn, every nnn but 0x0E0 and 0x0EE (40_control_flow R100). -/
  | sys (nnn : Addr)
  /-- `1nnn` JP nnn (40_control_flow R102). -/
  | jp (nnn : Addr)
  /-- `2nnn` CALL nnn (40_control_flow R103). -/
  | call (nnn : Addr)
  /-- `3xkk` SE Vx,kk (40_control_flow R104). -/
  | seByte (x : Reg) (kk : Byte)
  /-- `4xkk` SNE Vx,kk (40_control_flow R105). -/
  | sneByte (x : Reg) (kk : Byte)
  /-- `5xy0` SE Vx,Vy (40_control_flow R106). -/
  | seReg (x y : Reg)
  /-- `6xkk` LD Vx,kk (41_register_alu R132). -/
  | ldByte (x : Reg) (kk : Byte)
  /-- `7xkk` ADD Vx,kk (41_register_alu R133). -/
  | addByte (x : Reg) (kk : Byte)
  /-- `8xy0` LD Vx,Vy (41_register_alu R134). -/
  | ldReg (x y : Reg)
  /-- `8xy1` OR Vx,Vy (41_register_alu R135). -/
  | orReg (x y : Reg)
  /-- `8xy2` AND Vx,Vy (41_register_alu R136). -/
  | andReg (x y : Reg)
  /-- `8xy3` XOR Vx,Vy (41_register_alu R137). -/
  | xorReg (x y : Reg)
  /-- `8xy4` ADD Vx,Vy (41_register_alu R138). -/
  | addReg (x y : Reg)
  /-- `8xy5` SUB Vx,Vy (41_register_alu R139). -/
  | subReg (x y : Reg)
  /-- `8xy6` SHR Vx (41_register_alu R140). The field y is kept, since the word holds it; its meaning ignores it. -/
  | shr (x y : Reg)
  /-- `8xy7` SUBN Vx,Vy (41_register_alu R141). -/
  | subnReg (x y : Reg)
  /-- `8xyE` SHL Vx (41_register_alu R142). The field y is kept, since the word holds it; its meaning ignores it. -/
  | shl (x y : Reg)
  /-- `9xy0` SNE Vx,Vy (40_control_flow R107). -/
  | sneReg (x y : Reg)
  /-- `Annn` LD I,nnn (42_index_memory R170). -/
  | ldI (nnn : Addr)
  /-- `Bnnn` JP V0,nnn (40_control_flow R108). -/
  | jpV0 (nnn : Addr)
  /-- `Cxkk` RND Vx,kk (41_register_alu R143). -/
  | rnd (x : Reg) (kk : Byte)
  /-- `Dxyn` DRW Vx,Vy,n (44_display R232). -/
  | drw (x y : Reg) (n : Nibble)
  /-- `Ex9E` SKP Vx (43_timers_keypad R205). -/
  | skp (x : Reg)
  /-- `ExA1` SKNP Vx (43_timers_keypad R206). -/
  | sknp (x : Reg)
  /-- `Fx07` LD Vx,DT (43_timers_keypad R202). -/
  | ldVxDt (x : Reg)
  /-- `Fx0A` LD Vx,K (43_timers_keypad R207). -/
  | ldVxK (x : Reg)
  /-- `Fx15` LD DT,Vx (43_timers_keypad R203). -/
  | ldDt (x : Reg)
  /-- `Fx18` LD ST,Vx (43_timers_keypad R204). -/
  | ldSt (x : Reg)
  /-- `Fx1E` ADD I,Vx (42_index_memory R171). -/
  | addI (x : Reg)
  /-- `Fx29` LD F,Vx (42_index_memory R172). -/
  | ldF (x : Reg)
  /-- `Fx33` LD B,Vx (42_index_memory R173). -/
  | ldB (x : Reg)
  /-- `Fx55` LD [I],Vx (42_index_memory R174). -/
  | storeRegs (x : Reg)
  /-- `Fx65` LD Vx,[I] (42_index_memory R175). -/
  | loadRegs (x : Reg)
  /-- A word that matches no row: a no-op that advances (30_encoding R75). It keeps the word (log entry 20). -/
  | unknown (w : Word)
  deriving DecidableEq, Repr

end Sys2Proof
end

