-- ==== Sys2Proof/WellFormed.lean ====
section
/-! DEFINITION. Which terms of `Instr` stand for a word of the hardware. The fields' ranges are in their types; the
checks below are the two that are not. -/

namespace Sys2Proof

/-- The unknown words as 30_encoding R75 lists them, written from that list and not from the decoder.
`loose` is `LOOSE_5_9` (R76): when it is set, no 5xyn or 9xyn word is unknown. -/
def isUnknownWord (loose : Bool) (w : Word) : Bool :=
  let op := w.toNat / 4096
  let n := w.toNat % 16
  let kk := w.toNat % 256
  (op == 5 && n != 0 && !loose)
  || (op == 8 && [8, 9, 0xA, 0xB, 0xC, 0xD, 0xF].contains n)
  || (op == 9 && n != 0 && !loose)
  || (op == 0xE && !([0x9E, 0xA1].contains kk))
  || (op == 0xF && !([0x07, 0x0A, 0x15, 0x18, 0x1E, 0x29, 0x33, 0x55, 0x65].contains kk))

/-- `i` stands for a word: SYS excludes the two fixed words above its row (30_encoding R74), and an unknown word is
one of the list of 30_encoding R75. Every other term is well formed. -/
def Instr.wellFormed (loose : Bool) : Instr → Bool
  | .sys nnn => nnn != 0x0E0 && nnn != 0x0EE
  | .unknown w => isUnknownWord loose w
  | .cls | .ret | .jp _ | .call _ | .seByte _ _ | .sneByte _ _ | .seReg _ _ | .ldByte _ _ | .addByte _ _
  | .ldReg _ _ | .orReg _ _ | .andReg _ _ | .xorReg _ _ | .addReg _ _ | .subReg _ _ | .shr _ _ | .subnReg _ _
  | .shl _ _ | .sneReg _ _ | .ldI _ | .jpV0 _ | .rnd _ _ | .drw _ _ _ | .skp _ | .sknp _ | .ldVxDt _ | .ldVxK _
  | .ldDt _ | .ldSt _ | .addI _ | .ldF _ | .ldB _ | .storeRegs _ | .loadRegs _ => true

end Sys2Proof
end

