-- ==== Sys2Proof/Decode.lean ====
section
/-! DEFINITION. Instruction words: their fields (30_encoding R71), the decoder (R74, R87), the encoder, and the
opcode map of R74 as a list of rows. -/

namespace Sys2Proof

/-- `w[hi:lo]` as a natural number (00_scope R9). -/
def bits (w : Word) (hi lo : Nat) : Nat :=
  w.toNat / 2 ^ lo % 2 ^ (hi - lo + 1)

/-- A four-bit value as a register index or a nibble. -/
def toNibble (k : Nat) : Fin 16 :=
  Fin.ofNat 16 k

/-- `op = w[15:12]`, the major family (30_encoding R71). -/
def opField (w : Word) : Nat := bits w 15 12

/-- `x = w[11:8]` (30_encoding R71). -/
def xField (w : Word) : Reg := toNibble (bits w 11 8)

/-- `y = w[7:4]` (30_encoding R71). -/
def yField (w : Word) : Reg := toNibble (bits w 7 4)

/-- `n = w[3:0]` (30_encoding R71). -/
def nField (w : Word) : Nibble := toNibble (bits w 3 0)

/-- `kk = w[7:0]` (30_encoding R71). -/
def kkField (w : Word) : Byte := BitVec.ofNat 8 (bits w 7 0)

/-- `nnn = w[11:0]` (30_encoding R71). -/
def nnnField (w : Word) : Addr := BitVec.ofNat 12 (bits w 11 0)

/-- The words whose first nibble is 0: two fixed words, and SYS for the rest (30_encoding R74 rows 1 to 3). -/
def decodeSystem (w : Word) : Instr :=
  if w = 0x00E0 then .cls
  else if w = 0x00EE then .ret
  else .sys (nnnField w)

/-- The words `8xyn` (30_encoding R74 rows 11 to 19; R75 for the rest). -/
def decodeAlu (w : Word) : Instr :=
  match bits w 3 0 with
  | 0x0 => .ldReg (xField w) (yField w)
  | 0x1 => .orReg (xField w) (yField w)
  | 0x2 => .andReg (xField w) (yField w)
  | 0x3 => .xorReg (xField w) (yField w)
  | 0x4 => .addReg (xField w) (yField w)
  | 0x5 => .subReg (xField w) (yField w)
  | 0x6 => .shr (xField w) (yField w)
  | 0x7 => .subnReg (xField w) (yField w)
  | 0xE => .shl (xField w) (yField w)
  | _ => .unknown w

/-- The words `Exkk` (30_encoding R74 rows 25 and 26; R75 for the rest). -/
def decodeKey (w : Word) : Instr :=
  match bits w 7 0 with
  | 0x9E => .skp (xField w)
  | 0xA1 => .sknp (xField w)
  | _ => .unknown w

/-- The words `Fxkk` (30_encoding R74 rows 27 to 35; R75 for the rest). -/
def decodeMisc (w : Word) : Instr :=
  match bits w 7 0 with
  | 0x07 => .ldVxDt (xField w)
  | 0x0A => .ldVxK (xField w)
  | 0x15 => .ldDt (xField w)
  | 0x18 => .ldSt (xField w)
  | 0x1E => .addI (xField w)
  | 0x29 => .ldF (xField w)
  | 0x33 => .ldB (xField w)
  | 0x55 => .storeRegs (xField w)
  | 0x65 => .loadRegs (xField w)
  | _ => .unknown w

/-- `Decode(w)` (30_encoding R74, R87): total on every word, an unmatched word being `.unknown` (R75, R77).
`loose` is `LOOSE_5_9` (R76). -/
def decode (loose : Bool) (w : Word) : Instr :=
  match opField w with
  | 0x0 => decodeSystem w
  | 0x1 => .jp (nnnField w)
  | 0x2 => .call (nnnField w)
  | 0x3 => .seByte (xField w) (kkField w)
  | 0x4 => .sneByte (xField w) (kkField w)
  | 0x5 => if nField w = 0 ∨ loose then .seReg (xField w) (yField w) else .unknown w
  | 0x6 => .ldByte (xField w) (kkField w)
  | 0x7 => .addByte (xField w) (kkField w)
  | 0x8 => decodeAlu w
  | 0x9 => if nField w = 0 ∨ loose then .sneReg (xField w) (yField w) else .unknown w
  | 0xA => .ldI (nnnField w)
  | 0xB => .jpV0 (nnnField w)
  | 0xC => .rnd (xField w) (kkField w)
  | 0xD => .drw (xField w) (yField w) (nField w)
  | 0xE => decodeKey w
  | _ => decodeMisc w

/-- The big-endian word of two bytes, the byte at the lower address first (20_memory R56). -/
def wordOfBytes (hi lo : Byte) : Word :=
  BitVec.ofNat 16 (hi.toNat * 256 + lo.toNat)

/-- Bits 15:8 of a word, the byte at the lower address (20_memory R56). -/
def highByte (w : Word) : Byte := BitVec.ofNat 8 (bits w 15 8)

/-- Bits 7:0 of a word, the byte at the higher address (20_memory R56). -/
def lowByte (w : Word) : Byte := BitVec.ofNat 8 (bits w 7 0)

/-- Why a byte string holds no instruction. -/
inductive DecodeError where
  /-- Fewer than the two bytes every instruction has (30_encoding R70). -/
  | truncated
  deriving DecidableEq, Repr

/-- Decoding a byte string: the instruction of its first two bytes and the rest of it (30_encoding R70, 20_memory
R56). Two bytes always decode; fewer are refused by name. -/
def decodeBytes (loose : Bool) : List Byte → Except DecodeError (Instr × List Byte)
  | hi :: lo :: rest => .ok (decode loose (wordOfBytes hi lo), rest)
  | _ => .error .truncated

/-- The instruction word whose bits are `w`, bit 0 the least significant; the bits from `nbits` up are 0. -/
def tableWord (nbits w : Nat) : Word :=
  BitVec.ofNat 16 (w % 2 ^ nbits)

/-- The instruction the decoder reads, with the default `LOOSE_5_9`, from the two bytes of the word whose low `nbits`
bits are `w`. An instruction has 16 bits (30_encoding R70), so a longer `nbits` is refused. -/
def decodeTableWord (nbits w : Nat) : Option Instr :=
  if nbits ≤ 16 then
    match decodeBytes Machine.defaultConfig.loose59 [highByte (tableWord nbits w), lowByte (tableWord nbits w)] with
    | .ok (i, _) => some i
    | .error _ => none
  else none

/-- The word of format `nnn` (30_encoding R71, R72). -/
def wordNnn (op : Nat) (nnn : Addr) : Word :=
  BitVec.ofNat 16 (op * 4096 + nnn.toNat)

/-- The word of formats `xkk` and `x` (30_encoding R71, R72). -/
def wordXkk (op : Nat) (x : Reg) (kk : Byte) : Word :=
  BitVec.ofNat 16 (op * 4096 + x.val * 256 + kk.toNat)

/-- The word of formats `xy` and `xyn` (30_encoding R71, R72). -/
def wordXyn (op : Nat) (x y : Reg) (n : Nibble) : Word :=
  BitVec.ofNat 16 (op * 4096 + x.val * 256 + y.val * 16 + n.val)

/-- The word of an instruction, from the patterns of 30_encoding R74. -/
def encode : Instr → Word
  | .cls => 0x00E0
  | .ret => 0x00EE
  | .sys nnn => wordNnn 0x0 nnn
  | .jp nnn => wordNnn 0x1 nnn
  | .call nnn => wordNnn 0x2 nnn
  | .seByte x kk => wordXkk 0x3 x kk
  | .sneByte x kk => wordXkk 0x4 x kk
  | .seReg x y => wordXyn 0x5 x y 0x0
  | .ldByte x kk => wordXkk 0x6 x kk
  | .addByte x kk => wordXkk 0x7 x kk
  | .ldReg x y => wordXyn 0x8 x y 0x0
  | .orReg x y => wordXyn 0x8 x y 0x1
  | .andReg x y => wordXyn 0x8 x y 0x2
  | .xorReg x y => wordXyn 0x8 x y 0x3
  | .addReg x y => wordXyn 0x8 x y 0x4
  | .subReg x y => wordXyn 0x8 x y 0x5
  | .shr x y => wordXyn 0x8 x y 0x6
  | .subnReg x y => wordXyn 0x8 x y 0x7
  | .shl x y => wordXyn 0x8 x y 0xE
  | .sneReg x y => wordXyn 0x9 x y 0x0
  | .ldI nnn => wordNnn 0xA nnn
  | .jpV0 nnn => wordNnn 0xB nnn
  | .rnd x kk => wordXkk 0xC x kk
  | .drw x y n => wordXyn 0xD x y n
  | .skp x => wordXkk 0xE x 0x9E
  | .sknp x => wordXkk 0xE x 0xA1
  | .ldVxDt x => wordXkk 0xF x 0x07
  | .ldVxK x => wordXkk 0xF x 0x0A
  | .ldDt x => wordXkk 0xF x 0x15
  | .ldSt x => wordXkk 0xF x 0x18
  | .addI x => wordXkk 0xF x 0x1E
  | .ldF x => wordXkk 0xF x 0x29
  | .ldB x => wordXkk 0xF x 0x33
  | .storeRegs x => wordXkk 0xF x 0x55
  | .loadRegs x => wordXkk 0xF x 0x65
  | .unknown w => w

/-- The bytes of an instruction as memory holds them, big-endian (20_memory R56). -/
def encodeBytes (i : Instr) : List Byte :=
  [highByte (encode i), lowByte (encode i)]

/-- SHR Vx as it is assembled: 0 in the y field (30_encoding R78). -/
def assembleShr (x : Reg) : Word := encode (.shr x 0)

/-- SHL Vx as it is assembled: 0 in the y field (30_encoding R78). -/
def assembleShl (x : Reg) : Word := encode (.shl x 0)

/-- A row of the opcode map: it matches `w` when `(w & mask) == pattern`, and then gives `instr w`. -/
structure OpcodeRow where
  mask : Word
  pattern : Word
  instr : Word → Instr

/-- The opcode map of 30_encoding R74, row by row in its order. With `LOOSE_5_9` the masks of rows 8 and 20
become F000 (R76). The machine runs `decode`; that the two agree is a statement about this list. -/
def opcodeMap (loose : Bool) : List OpcodeRow :=
  let m59 : Word := if loose then 0xF000 else 0xF00F
  [⟨0xFFFF, 0x00E0, fun _ => .cls⟩,
   ⟨0xFFFF, 0x00EE, fun _ => .ret⟩,
   ⟨0xF000, 0x0000, fun w => .sys (nnnField w)⟩,
   ⟨0xF000, 0x1000, fun w => .jp (nnnField w)⟩,
   ⟨0xF000, 0x2000, fun w => .call (nnnField w)⟩,
   ⟨0xF000, 0x3000, fun w => .seByte (xField w) (kkField w)⟩,
   ⟨0xF000, 0x4000, fun w => .sneByte (xField w) (kkField w)⟩,
   ⟨m59, 0x5000, fun w => .seReg (xField w) (yField w)⟩,
   ⟨0xF000, 0x6000, fun w => .ldByte (xField w) (kkField w)⟩,
   ⟨0xF000, 0x7000, fun w => .addByte (xField w) (kkField w)⟩] ++
  [⟨0xF00F, 0x8000, fun w => .ldReg (xField w) (yField w)⟩,
   ⟨0xF00F, 0x8001, fun w => .orReg (xField w) (yField w)⟩,
   ⟨0xF00F, 0x8002, fun w => .andReg (xField w) (yField w)⟩,
   ⟨0xF00F, 0x8003, fun w => .xorReg (xField w) (yField w)⟩,
   ⟨0xF00F, 0x8004, fun w => .addReg (xField w) (yField w)⟩,
   ⟨0xF00F, 0x8005, fun w => .subReg (xField w) (yField w)⟩,
   ⟨0xF00F, 0x8006, fun w => .shr (xField w) (yField w)⟩,
   ⟨0xF00F, 0x8007, fun w => .subnReg (xField w) (yField w)⟩,
   ⟨0xF00F, 0x800E, fun w => .shl (xField w) (yField w)⟩,
   ⟨m59, 0x9000, fun w => .sneReg (xField w) (yField w)⟩] ++
  [⟨0xF000, 0xA000, fun w => .ldI (nnnField w)⟩,
   ⟨0xF000, 0xB000, fun w => .jpV0 (nnnField w)⟩,
   ⟨0xF000, 0xC000, fun w => .rnd (xField w) (kkField w)⟩,
   ⟨0xF000, 0xD000, fun w => .drw (xField w) (yField w) (nField w)⟩,
   ⟨0xF0FF, 0xE09E, fun w => .skp (xField w)⟩,
   ⟨0xF0FF, 0xE0A1, fun w => .sknp (xField w)⟩,
   ⟨0xF0FF, 0xF007, fun w => .ldVxDt (xField w)⟩,
   ⟨0xF0FF, 0xF00A, fun w => .ldVxK (xField w)⟩,
   ⟨0xF0FF, 0xF015, fun w => .ldDt (xField w)⟩,
   ⟨0xF0FF, 0xF018, fun w => .ldSt (xField w)⟩,
   ⟨0xF0FF, 0xF01E, fun w => .addI (xField w)⟩,
   ⟨0xF0FF, 0xF029, fun w => .ldF (xField w)⟩,
   ⟨0xF0FF, 0xF033, fun w => .ldB (xField w)⟩,
   ⟨0xF0FF, 0xF055, fun w => .storeRegs (xField w)⟩,
   ⟨0xF0FF, 0xF065, fun w => .loadRegs (xField w)⟩]

/-- The first matching row of the opcode map, or `.unknown` (30_encoding R74, R87). -/
def decodeByMap (loose : Bool) (w : Word) : Instr :=
  match (opcodeMap loose).find? (fun row => w &&& row.mask == row.pattern) with
  | some row => row.instr w
  | none => .unknown w

end Sys2Proof
end

