-- ==== Sys2Proof/Machine/State.lean ====
section
/-! DEFINITION. The state of the block (10_state), its faults (60_exceptions R300) and its reset value (R37, R350). -/

namespace Sys2Proof.Machine

/-- A fault record: the kind and the recorded information of 60_exceptions R300. `exec` answers `.fault` with one
when the instruction raises it, and `step` then records it in the state (R301); `step` answers `.fault` with the
recorded one when it is called on a state that already holds it (R302). -/
inductive Fault where
  /-- CALL with sp = 11; the pc of the CALL (92 D3). Safe: the source leaves the case unchecked. -/
  | stackOverflow (pc : Word)
  /-- RET with sp = 0; the pc of the RET (92 D4). Safe: the source calls the case undefined. -/
  | stackUnderflow (pc : Word)
  /-- DRW, LD B, LD [I] and LD Vx,[I] at a data address above 0xFFF; the first such address (92 D5). Safe: the
  source gives no memory there. -/
  | memoryOutOfRange (addr : Nat)
  /-- The fetch of a step with pc + 1 above 0xFFF; the pc (92 D5). Safe: the source gives no memory there. -/
  | fetchOutOfRange (pc : Word)
  /-- SKP and SKNP with Vx above 15; Vx (92 D9). Safe: the source gives no key there. -/
  | keyIndexOutOfRange (key : Byte)
  deriving DecidableEq, Repr

/-- Why the model has no meaning for an instruction. -/
inductive Refusal where
  /-- Raised by `exec` for an instruction not yet modelled, by its mnemonic. Safe. No arm raises it. -/
  | notModelled (mnemonic : String)
  deriving DecidableEq, Repr

/-- What the host supplies to one step (30_encoding R86, 60_exceptions R312): the keypad snapshot, bit k being key k
pressed, and a random byte. -/
structure HostInput where
  keys : BitVec 16
  rnd : Byte
  deriving DecidableEq, Repr

/-- The one state record (10_state). Plain data. -/
structure State where
  /-- V0..VF (R20); VF is the flags register (R21). -/
  v : Vector Byte 16
  /-- The program counter: during an instruction, the address of its first byte (R22). -/
  pc : Word
  /-- The stack pointer: the last pushed slot, 0 for the empty stack (R24). -/
  sp : Fin 12
  /-- The call stack (R24). A slot of 16 bits, the default, holds a return address whole (92 D21);
  that one of another width holds its low `cfg.slotWidth` bits is a DESIGN CHOICE (log entry 18). -/
  stack : Vector Word 12
  /-- The index register I (R25). -/
  i : Word
  /-- The delay timer DT (R26). -/
  dt : Byte
  /-- The sound timer ST (R27). -/
  st : Byte
  /-- The keypad latch, bit k being key k pressed (R28). -/
  keys : BitVec 16
  /-- The wait flag (R29). -/
  wait : Bool
  /-- The register a wait writes (R29). -/
  waitReg : Reg
  /-- The lit pixels (column, row) of the framebuffer, in row-major order, each once (R30; log entry 16). -/
  fb : List (Nat × Nat)
  /-- The draw-occurred mark (R31). -/
  redraw : Bool
  /-- The fault status (R32). -/
  fault : Option Fault
  /-- The memory bytes that differ from what an unlisted address reads as, by rising address (R33; log entry 16). -/
  mem : List Host.Cell
  /-- The parameters (00_scope R7). The model's own field: no step changes it (log entry 3). -/
  cfg : Config
  /-- The random byte supplied to the current step (30_encoding R86). The model's own field (log entry 1). -/
  rnd : Byte
  /-- The inputs the host has queued for the coming steps, the next one first. The model's own field (log entry 1). -/
  inputs : List HostInput
  /-- How many steps have taken their input. The model's own field, a plain counter (log entry 1). -/
  inputCount : Nat
  deriving DecidableEq, Repr

/-- The machine right after reset and the glyph load, with an empty program image (10_state R37; 70_reset R350,
R351; log entry 19). Only pc and sp are the source's own values; the zeros are the spec's decision D18 (log entry 6,
UNVERIFIED: unsafe). Memory lists nothing, so it reads as FONT below 0x050 and as zero above. -/
def State.reset : State where
  v := Vector.replicate 16 0
  pc := 0x200
  sp := 0
  stack := Vector.replicate 12 0
  i := 0
  dt := 0
  st := 0
  keys := 0
  wait := false
  waitReg := 0
  fb := []
  redraw := false
  fault := none
  mem := []
  cfg := defaultConfig
  rnd := 0
  inputs := []
  inputCount := 0

end Sys2Proof.Machine
end

