-- ==== Sys2Proof/Machine/Ops.lean ====
section
/-! DEFINITION. The named operations over registers, memory, stack, timers, keypad and faults. Every access to a
field of the state that has a rule of its own goes through one of these. -/

namespace Sys2Proof.Machine

/-! ### Registers (10_state R20 to R29) -/

/-- `V[r]` (00_scope R11, 10_state R20). -/
def State.getV (s : State) (r : Reg) : Byte :=
  s.v[r.val]

/-- `V[r] <- b` (00_scope R11, 10_state R20). -/
def State.setV (s : State) (r : Reg) (b : Byte) : State :=
  { s with v := s.v.set r.val b }

/-- `pc <- a` (00_scope R11). -/
def State.setPc (s : State) (a : Word) : State :=
  { s with pc := a }

/-- `I <- a` (00_scope R11). -/
def State.setI (s : State) (a : Word) : State :=
  { s with i := a }

/-- `DT <- b` (00_scope R11). -/
def State.setDt (s : State) (b : Byte) : State :=
  { s with dt := b }

/-- `ST <- b` (00_scope R11). -/
def State.setSt (s : State) (b : Byte) : State :=
  { s with st := b }

/-- `redraw <- b` (10_state R31). -/
def State.setRedraw (s : State) (b : Bool) : State :=
  { s with redraw := b }

/-- The framebuffer's lit pixels replaced (10_state R30). -/
def State.setFb (s : State) (fb : List (Nat × Nat)) : State :=
  { s with fb := fb }

/-- The memory's listed bytes replaced (10_state R33). -/
def State.setMem (s : State) (mem : List Host.Cell) : State :=
  { s with mem := mem }

/-- `keys <- ks`: another keypad snapshot latched (10_state R28). -/
def State.setKeys (s : State) (ks : BitVec 16) : State :=
  { s with keys := ks }

/-- The step's random byte replaced (30_encoding R88; log entry 1). -/
def State.setRnd (s : State) (b : Byte) : State :=
  { s with rnd := b }

/-- V0, V1, ... Vx in ascending order (42_index_memory R174). -/
def State.firstRegs (s : State) (x : Reg) : List Byte :=
  s.v.toList.take (x.val + 1)

/-- `V[k] <- b` for each byte of a list, k counting up from the given index (42_index_memory R175). -/
def State.putRegs : Nat → List Byte → State → State
  | _, [], s => s
  | k, b :: bs, s => State.putRegs (k + 1) bs (s.setV (toNibble k) b)

/-! ### Program-counter effects (30_encoding R90) -/

/-- The three effects an instruction can return (30_encoding R90). -/
inductive PcEffect where
  /-- `pc <- (pc + 2) mod 2^16`. -/
  | advance
  /-- `pc <- (pc + 4) mod 2^16`. -/
  | skip
  /-- `pc <- a mod 2^16`. -/
  | jump (a : Nat)
  deriving DecidableEq, Repr

/-- `ApplyEffect` (30_encoding R90): `pc` is still the address of the executing instruction. -/
def applyEffect (e : PcEffect) (s : State) : State :=
  match e with
  | .advance => s.setPc (s.pc + 2)
  | .skip => s.setPc (s.pc + 4)
  | .jump a => s.setPc (BitVec.ofNat 16 a)

/-- The end of an instruction that returns `e`, after all its other writes (30_encoding R88, R90). -/
def finish (e : PcEffect) (s : State) : Host.Outcome State Fault Refusal :=
  .next (applyEffect e s)

/-- A skip-class instruction's effect: SKIP when its predicate holds, ADVANCE otherwise (30_encoding R91). -/
def skipIf (p : Bool) : PcEffect :=
  if p then .skip else .advance

/-! ### The call stack (10_state R24) -/

/-- What a stack slot keeps of a return address: all of it at the default of 16 bits (00_scope R7, 10_state R24, 92
D21). DESIGN CHOICE: at another width it keeps the low `slotWidth` bits (log entry 18). -/
def slotValue (cfg : Config) (a : Word) : Word :=
  BitVec.ofNat 16 (a.toNat % 2 ^ cfg.slotWidth)

/-- A push: `sp <- sp + 1`, then `stack[sp] <- a` (10_state R24). Called below sp = 11 only. -/
def State.push (s : State) (a : Word) : State :=
  { s with sp := s.sp + 1, stack := s.stack.set (s.sp + 1).val (slotValue s.cfg a) }

/-- The slot a pop reads (10_state R24). -/
def State.top (s : State) : Word :=
  s.stack[s.sp.val]

/-- `sp <- sp - 1`; the slot keeps its value (10_state R24, 40_control_flow R101). Called above sp = 0 only. -/
def State.drop (s : State) : State :=
  { s with sp := s.sp - 1 }

/-! ### Memory (20_memory) -/

/-- What a byte no entry lists reads as: FONT in 0x000..0x04F and zero elsewhere (10_state R37). -/
def unlistedByte (a : Nat) : Byte :=
  fontBytes.getD a 0

/-- The byte at `a`. -/
def Memory.read (mem : List Host.Cell) (a : Nat) : Byte :=
  match mem with
  | [] => unlistedByte a
  | c :: rest => if c.1 = a then c.2 else Memory.read rest a

/-- An entry put at its place by rising address. -/
def Memory.insert (c : Host.Cell) : List Host.Cell → List Host.Cell
  | [] => [c]
  | d :: rest => if c.1 < d.1 then c :: d :: rest else d :: Memory.insert c rest

/-- The byte at `a` replaced by `b`. No entry equal to what an unlisted address reads as is kept. -/
def Memory.write (mem : List Host.Cell) (a : Nat) (b : Byte) : List Host.Cell :=
  let others := mem.filter (fun c => c.1 != a)
  if b = unlistedByte a then others else Memory.insert (a, b) others

/-- The bytes `bs` written at `a`, `a + 1`, ... -/
def Memory.writeSeq : List Host.Cell → Nat → List Byte → List Host.Cell
  | mem, _, [] => mem
  | mem, a, b :: bs => Memory.writeSeq (Memory.write mem a b) (a + 1) bs

/-- Entries stand at strictly rising addresses, the first above `lo` if one is given. -/
def Memory.risingFrom : Option Nat → List Host.Cell → Bool
  | _, [] => true
  | none, c :: rest => Memory.risingFrom (some c.1) rest
  | some lo, c :: rest => decide (lo < c.1) && Memory.risingFrom (some c.1) rest

/-- The canonical form: strictly rising addresses below `memSize`, and no entry equal to what an unlisted address
reads as. -/
def Memory.wf (mem : List Host.Cell) : Bool :=
  Memory.risingFrom none mem && mem.all (fun c => decide (c.1 < memSize) && c.2 != unlistedByte c.1)

/-- `MemRead(addr, 1)` (20_memory R53). -/
def memRead (addr : Nat) (s : State) : Except Fault Byte :=
  if addr > 0xFFF then .error (.memoryOutOfRange addr)
  else .ok (Memory.read s.mem addr)

/-- `MemWrite(addr, 1, b)` (20_memory R54). -/
def memWrite (addr : Nat) (b : Byte) (s : State) : Except Fault State :=
  if addr > 0xFFF then .error (.memoryOutOfRange addr)
  else .ok (s.setMem (Memory.write s.mem addr b))

/-- `count` bytes read at ascending addresses from `addr`; the first address above 0xFFF faults (20_memory R55,
R61). -/
def memReadSeq (addr : Nat) : Nat → State → Except Fault (List Byte)
  | 0, _ => .ok []
  | count + 1, s =>
    match memRead addr s with
    | .error f => .error f
    | .ok b =>
      match memReadSeq (addr + 1) count s with
      | .error f => .error f
      | .ok bs => .ok (b :: bs)

/-- Bytes written at ascending addresses from `addr`; the first address above 0xFFF faults (20_memory R55, R61), and
then no byte is written, since no state is answered (20_memory R54). -/
def memWriteSeq (addr : Nat) : List Byte → State → Except Fault State
  | [], s => .ok s
  | b :: bs, s =>
    match memWrite addr b s with
    | .error f => .error f
    | .ok s' => memWriteSeq (addr + 1) bs s'

/-- `Fetch` (20_memory R58): the big-endian word at pc, at any pc, odd too (R57). -/
def fetch (s : State) : Except Fault Word :=
  if s.pc.toNat + 1 > 0xFFF then .error (.fetchOutOfRange s.pc)
  else .ok (wordOfBytes (Memory.read s.mem s.pc.toNat) (Memory.read s.mem (s.pc.toNat + 1)))

/-! ### Faults (60_exceptions R301) -/

/-- Taking a fault raised anywhere in the step that began in `s0`: the state becomes `s0` with the fault recorded,
and every write of the step is discarded (60_exceptions R301). Nothing is saved and control goes nowhere (R305).
Only reset clears the record (R302); there is no return from a fault (R306). -/
def takeFault (s0 : State) (f : Fault) : State :=
  { s0 with fault := some f }

/-- How a step that began in `s0` ends, given how its instruction ended (30_encoding R86, 60_exceptions R301). -/
def settle (s0 : State) : Host.Outcome State Fault Refusal → Host.Outcome State Fault Refusal
  | .next s => .next s
  | .fault f => .next (takeFault s0 f)
  | .refused r => .refused r

/-! ### The parts of a step before the instruction (30_encoding R86) -/

/-- The input of the coming step: the first the host has queued, or a free one under no law (10_state R35; log
entry 1). -/
def State.nextInput (s : State) : HostInput :=
  match s.inputs with
  | inp :: _ => inp
  | [] => ⟨Config.hostKeys s.inputCount, Config.hostRandom s.inputCount⟩

/-- The start of every step, waiting or not: `keys <- snap`, the step's random byte, and `redraw <- false`
(30_encoding R86, 43_timers_keypad R209, 10_state R31). -/
def State.beginStep (s : State) : State :=
  { s with
    keys := s.nextInput.keys
    rnd := s.nextInput.rnd
    inputs := s.inputs.tail
    inputCount := s.inputCount + 1
    redraw := false }

/-- One timer's tick: down by one while it is above 0 (43_timers_keypad R200). -/
def tickDown (t : Byte) : Byte :=
  if t.toNat > 0 then t - 1 else t

/-- `TimerTick` (43_timers_keypad R200). -/
def timerTick (s : State) : State :=
  { s with st := tickDown s.st, dt := tickDown s.dt }

/-- `keys[k]` of a snapshot (10_state R28, 60_exceptions R312). -/
def keyDown (keys : BitVec 16) (k : Nat) : Bool :=
  keys.getLsbD k

/-- The least index of a pressed key, scanning 0..15 (43_timers_keypad R208). -/
def firstKey (keys : BitVec 16) : Option Reg :=
  (List.finRange 16).find? (fun k => keyDown keys k.val)

/-- Entering the wait state with destination register `x` (43_timers_keypad R207). -/
def State.beginWait (s : State) (x : Reg) : State :=
  { s with wait := true, waitReg := x }

/-- Leaving the wait state with key `k` (43_timers_keypad R208). -/
def State.endWait (s : State) (k : Reg) : State :=
  { s.setV s.waitReg (BitVec.ofNat 8 k.val) with wait := false }

/-- `WaitScan` (43_timers_keypad R208). -/
def waitScan (s : State) : State :=
  match firstKey s.keys with
  | some k => s.endWait k
  | none => s

end Sys2Proof.Machine
end

