-- ==== Sys2Proof/Machine/Operands.lean ====
section
/-! DEFINITION. The operand forms (30_encoding R73; 20_memory R55; 44_display R230). A register operand is
`State.getV`, an immediate byte is used as is, and a count is a natural. -/

namespace Sys2Proof.Machine

/-- `nnn` where it is assigned to `I`: zero-extended to 16 bits (30_encoding R73). -/
def zextAddr (nnn : Addr) : Word :=
  nnn.setWidth 16

/-- The data address of byte `k`: the natural number `I + k`, reduced by nothing (20_memory R55). -/
def dataAddr (s : State) (k : Nat) : Nat :=
  s.i.toNat + k

/-- The target of JP V0,nnn: a natural sum, not masked (40_control_flow R108). -/
def offsetTarget (s : State) (nnn : Addr) : Nat :=
  (s.getV 0).toNat + nnn.toNat

/-- The three decimal digits of a byte: hundreds, tens, ones (42_index_memory R173). -/
def bcdDigits (b : Byte) : List Byte :=
  [BitVec.ofNat 8 (b.toNat / 100), BitVec.ofNat 8 (b.toNat / 10 % 10), BitVec.ofNat 8 (b.toNat % 10)]

/-- The address of digit `b`'s glyph, not masked (42_index_memory R172). -/
def glyphAddr (b : Byte) : Word :=
  BitVec.ofNat 16 (b.toNat * 5)

/-- The pixel of column offset `b` and row offset `r` from (`xv`, `yv`): each coordinate reduced by itself
(44_display R230). -/
def targetPixel (cfg : Config) (xv yv r b : Nat) : Nat × Nat :=
  ((xv + b) % cfg.width, (yv + r) % cfg.height)

/-- Bit `b` of a sprite row, the most significant first (44_display R232). -/
def spriteBit (row : Byte) (b : Nat) : Bool :=
  row.getLsbD (7 - b)

end Sys2Proof.Machine
end

