-- ==== Sys2Proof/Machine/Flags.lean ====
section
/-! DEFINITION. What the flag-writing instructions write to VF (10_state R21), and the order of that write
(41_register_alu R131). -/

namespace Sys2Proof.Machine

/-- A Boolean written to a register: 1 for true, 0 for false (00_scope R10). -/
def flagByte (b : Bool) : Byte :=
  if b then 1 else 0

/-- The carry of an addition: the natural sum exceeds 255 (41_register_alu R138). -/
def carryFlag (a b : Byte) : Bool :=
  decide (a.toNat + b.toNat > 255)

/-- The flag of SUB and SUBN: strictly greater, so false at equality (41_register_alu R139, R141; 90 C3). -/
def greaterFlag (a b : Byte) : Bool :=
  decide (a.toNat > b.toNat)

/-- The flag of SHR: bit 0 before the shift (41_register_alu R140). -/
def lowBit (a : Byte) : Bool :=
  a.getLsbD 0

/-- The flag of SHL: bit 7 before the shift (41_register_alu R142). -/
def highBit (a : Byte) : Bool :=
  a.getLsbD 7

/-- A flag-writing instruction's two writes (41_register_alu R131). `flag` is computed before either. `result` is
given the state it reads its operands in. Sequential: VF first, and the result is read after it. OperandsFirst: the
result is read and written first, and VF last. -/
def writeFlagged (x : Reg) (flag : Bool) (result : State → Byte) (s : State) : State :=
  match s.cfg.vfAlias with
  | .sequential =>
    let s' := s.setV flagReg (flagByte flag)
    s'.setV x (result s')
  | .operandsFirst => (s.setV x (result s)).setV flagReg (flagByte flag)

end Sys2Proof.Machine
end

