-- ==== Sys2Proof/Machine/Alu.lean ====
section
/-! DEFINITION. Register loads and arithmetic (41_register_alu). Every result is a byte, modulo 256 (R130). -/

namespace Sys2Proof.Machine

/-- LD Vx,kk (41_register_alu R132). -/
def execLdByte (x : Reg) (kk : Byte) (s : State) : Host.Outcome State Fault Refusal :=
  finish .advance (s.setV x kk)

/-- ADD Vx,kk: no flag (41_register_alu R133). -/
def execAddByte (x : Reg) (kk : Byte) (s : State) : Host.Outcome State Fault Refusal :=
  finish .advance (s.setV x (s.getV x + kk))

/-- LD Vx,Vy (41_register_alu R134). -/
def execLdReg (x y : Reg) (s : State) : Host.Outcome State Fault Refusal :=
  finish .advance (s.setV x (s.getV y))

/-- OR Vx,Vy: no flag (41_register_alu R135). -/
def execOrReg (x y : Reg) (s : State) : Host.Outcome State Fault Refusal :=
  finish .advance (s.setV x (s.getV x ||| s.getV y))

/-- AND Vx,Vy: no flag (41_register_alu R136). -/
def execAndReg (x y : Reg) (s : State) : Host.Outcome State Fault Refusal :=
  finish .advance (s.setV x (s.getV x &&& s.getV y))

/-- XOR Vx,Vy: no flag (41_register_alu R137). -/
def execXorReg (x y : Reg) (s : State) : Host.Outcome State Fault Refusal :=
  finish .advance (s.setV x (s.getV x ^^^ s.getV y))

/-- ADD Vx,Vy: the sum is taken before the flag write in both readings (41_register_alu R138). -/
def execAddReg (x y : Reg) (s : State) : Host.Outcome State Fault Refusal :=
  finish .advance
    (writeFlagged x (carryFlag (s.getV x) (s.getV y)) (fun _ => s.getV x + s.getV y) s)

/-- SUB Vx,Vy (41_register_alu R139). -/
def execSubReg (x y : Reg) (s : State) : Host.Outcome State Fault Refusal :=
  finish .advance
    (writeFlagged x (greaterFlag (s.getV x) (s.getV y)) (fun t => t.getV x - t.getV y) s)

/-- SHR Vx: in place, the y field ignored (41_register_alu R140). -/
def execShr (x _y : Reg) (s : State) : Host.Outcome State Fault Refusal :=
  finish .advance (writeFlagged x (lowBit (s.getV x)) (fun t => t.getV x >>> 1) s)

/-- SUBN Vx,Vy (41_register_alu R141). -/
def execSubnReg (x y : Reg) (s : State) : Host.Outcome State Fault Refusal :=
  finish .advance
    (writeFlagged x (greaterFlag (s.getV y) (s.getV x)) (fun t => t.getV y - t.getV x) s)

/-- SHL Vx: in place, the y field ignored (41_register_alu R142). -/
def execShl (x _y : Reg) (s : State) : Host.Outcome State Fault Refusal :=
  finish .advance (writeFlagged x (highBit (s.getV x)) (fun t => t.getV x <<< 1) s)

/-- RND Vx,kk: the step's random byte masked (41_register_alu R143). -/
def execRnd (x : Reg) (kk : Byte) (s : State) : Host.Outcome State Fault Refusal :=
  finish .advance (s.setV x (s.rnd &&& kk))

end Sys2Proof.Machine
end

