-- ==== Sys2Proof/Machine/Control.lean ====
section
/-! DEFINITION. Control flow (40_control_flow) and the unknown word (30_encoding R75). -/

namespace Sys2Proof.Machine

/-- SYS nnn: a no-op (40_control_flow R100). -/
def execSys (_nnn : Addr) (s : State) : Host.Outcome State Fault Refusal :=
  finish .advance s

/-- An unknown word: a no-op that advances (30_encoding R75). -/
def execUnknown (_w : Word) (s : State) : Host.Outcome State Fault Refusal :=
  finish .advance s

/-- RET (40_control_flow R101). -/
def execRet (s : State) : Host.Outcome State Fault Refusal :=
  if s.sp = 0 then .fault (.stackUnderflow s.pc)
  else finish (.jump s.top.toNat) s.drop

/-- JP nnn (40_control_flow R102). -/
def execJp (nnn : Addr) (s : State) : Host.Outcome State Fault Refusal :=
  finish (.jump nnn.toNat) s

/-- CALL nnn: the pushed address is that of the instruction after it (40_control_flow R103). -/
def execCall (nnn : Addr) (s : State) : Host.Outcome State Fault Refusal :=
  if s.sp = 11 then .fault (.stackOverflow s.pc)
  else finish (.jump nnn.toNat) (s.push (s.pc + 2))

/-- SE Vx,kk (40_control_flow R104). -/
def execSeByte (x : Reg) (kk : Byte) (s : State) : Host.Outcome State Fault Refusal :=
  finish (skipIf (s.getV x == kk)) s

/-- SNE Vx,kk (40_control_flow R105). -/
def execSneByte (x : Reg) (kk : Byte) (s : State) : Host.Outcome State Fault Refusal :=
  finish (skipIf (s.getV x != kk)) s

/-- SE Vx,Vy (40_control_flow R106). -/
def execSeReg (x y : Reg) (s : State) : Host.Outcome State Fault Refusal :=
  finish (skipIf (s.getV x == s.getV y)) s

/-- SNE Vx,Vy (40_control_flow R107). -/
def execSneReg (x y : Reg) (s : State) : Host.Outcome State Fault Refusal :=
  finish (skipIf (s.getV x != s.getV y)) s

/-- JP V0,nnn (40_control_flow R108). -/
def execJpV0 (nnn : Addr) (s : State) : Host.Outcome State Fault Refusal :=
  finish (.jump (offsetTarget s nnn)) s

end Sys2Proof.Machine
end

