-- ==== Sys2Proof/Machine/Display.lean ====
section
/-! DEFINITION. The framebuffer and the drawing engine (44_display). -/

namespace Sys2Proof.Machine

/-- Row-major order of pixels (column, row). -/
def pixelBefore (p q : Nat × Nat) : Bool :=
  decide (p.2 < q.2) || (decide (p.2 = q.2) && decide (p.1 < q.1))

/-- Whether a pixel is 1 (10_state R30). -/
def Fb.lit (fb : List (Nat × Nat)) (p : Nat × Nat) : Bool :=
  fb.contains p

/-- A pixel put at its place in row-major order. -/
def Fb.insert (p : Nat × Nat) : List (Nat × Nat) → List (Nat × Nat)
  | [] => [p]
  | q :: rest => if pixelBefore p q then p :: q :: rest else q :: Fb.insert p rest

/-- A pixel XOR 1 (44_display R232). -/
def Fb.toggle (fb : List (Nat × Nat)) (p : Nat × Nat) : List (Nat × Nat) :=
  if Fb.lit fb p then fb.filter (fun q => q != p) else Fb.insert p fb

/-- Pixels stand strictly in row-major order, the first after `lo` if one is given. -/
def Fb.risingFrom : Option (Nat × Nat) → List (Nat × Nat) → Bool
  | _, [] => true
  | none, p :: rest => Fb.risingFrom (some p) rest
  | some lo, p :: rest => pixelBefore lo p && Fb.risingFrom (some p) rest

/-- The canonical form: strictly row-major, every pixel within `W` × `H`. -/
def Fb.wf (cfg : Config) (fb : List (Nat × Nat)) : Bool :=
  Fb.risingFrom none fb && fb.all (fun p => decide (p.1 < cfg.width) && decide (p.2 < cfg.height))

/-- One sprite bit at one pixel: the pixel XOR the bit, and the collision so far OR both being 1
(44_display R232). -/
def drawBit (p : Nat × Nat) (bit : Bool) (acc : List (Nat × Nat) × Bool) : List (Nat × Nat) × Bool :=
  if bit then (Fb.toggle acc.1 p, acc.2 || Fb.lit acc.1 p) else acc

/-- One sprite row, its eight bits from the most significant (44_display R232). -/
def drawRow (cfg : Config) (xv yv r : Nat) (row : Byte) (acc : List (Nat × Nat) × Bool) :
    List (Nat × Nat) × Bool :=
  (List.range 8).foldl (fun a b => drawBit (targetPixel cfg xv yv r b) (spriteBit row b) a) acc

/-- The sprite rows from row offset `r` down (44_display R232). -/
def drawRows (cfg : Config) (xv yv : Nat) : Nat → List Byte → List (Nat × Nat) × Bool → List (Nat × Nat) × Bool
  | _, [], acc => acc
  | r, row :: rows, acc => drawRows cfg xv yv (r + 1) rows (drawRow cfg xv yv r row acc)

/-- The state DRW reads its coordinates in (44_display R232, 41_register_alu R131): with VF cleared in the
Sequential reading, before the clear in the OperandsFirst reading. -/
def coordState (s : State) : State :=
  match s.cfg.vfAlias with
  | .sequential => s.setV flagReg 0
  | .operandsFirst => s

/-- CLS (44_display R231). -/
def execCls (s : State) : Host.Outcome State Fault Refusal :=
  let t := s.setFb []
  finish .advance (if s.cfg.clsRedraw then t.setRedraw true else t)

/-- DRW Vx,Vy,n (44_display R232): all sprite reads come before any change. -/
def execDrw (x y : Reg) (n : Nibble) (s : State) : Host.Outcome State Fault Refusal :=
  match memReadSeq (dataAddr s 0) n.val s with
  | .error f => .fault f
  | .ok rows =>
    let xv := ((coordState s).getV x).toNat
    let yv := ((coordState s).getV y).toNat
    let drawn := drawRows s.cfg xv yv 0 rows (s.fb, false)
    finish .advance (((s.setFb drawn.1).setV flagReg (flagByte drawn.2)).setRedraw true)

end Sys2Proof.Machine
end

