-- ==== Sys2Proof/Machine/Index.lean ====
section
/-! DEFINITION. The index register and memory transfer (42_index_memory). No access changes I. -/

namespace Sys2Proof.Machine

/-- LD I,nnn (42_index_memory R170). -/
def execLdI (nnn : Addr) (s : State) : Host.Outcome State Fault Refusal :=
  finish .advance (s.setI (zextAddr nnn))

/-- ADD I,Vx: modulo 2^16, VF unchanged (42_index_memory R171). -/
def execAddI (x : Reg) (s : State) : Host.Outcome State Fault Refusal :=
  finish .advance (s.setI (s.i + (s.getV x).setWidth 16))

/-- LD F,Vx: the register is not masked (42_index_memory R172). -/
def execLdF (x : Reg) (s : State) : Host.Outcome State Fault Refusal :=
  finish .advance (s.setI (glyphAddr (s.getV x)))

/-- LD B,Vx (42_index_memory R173). -/
def execLdB (x : Reg) (s : State) : Host.Outcome State Fault Refusal :=
  match memWriteSeq (dataAddr s 0) (bcdDigits (s.getV x)) s with
  | .error f => .fault f
  | .ok t => finish .advance t

/-- LD [I],Vx: V0 to Vx inclusive, ascending (42_index_memory R174). -/
def execStoreRegs (x : Reg) (s : State) : Host.Outcome State Fault Refusal :=
  match memWriteSeq (dataAddr s 0) (s.firstRegs x) s with
  | .error f => .fault f
  | .ok t => finish .advance t

/-- LD Vx,[I]: V0 to Vx inclusive, ascending (42_index_memory R175). -/
def execLoadRegs (x : Reg) (s : State) : Host.Outcome State Fault Refusal :=
  match memReadSeq (dataAddr s 0) (x.val + 1) s with
  | .error f => .fault f
  | .ok bs => finish .advance (State.putRegs 0 bs s)

end Sys2Proof.Machine
end

