-- ==== Sys2Proof/Machine/TimersKeypad.lean ====
section
/-! DEFINITION. The timer, keypad and wait instructions (43_timers_keypad). -/

namespace Sys2Proof.Machine

/-- LD Vx,DT: DT after this step's tick (43_timers_keypad R202). -/
def execLdVxDt (x : Reg) (s : State) : Host.Outcome State Fault Refusal :=
  finish .advance (s.setV x s.dt)

/-- LD DT,Vx (43_timers_keypad R203). -/
def execLdDt (x : Reg) (s : State) : Host.Outcome State Fault Refusal :=
  finish .advance (s.setDt (s.getV x))

/-- LD ST,Vx: takes effect only for a value of at least 2 (43_timers_keypad R204). -/
def execLdSt (x : Reg) (s : State) : Host.Outcome State Fault Refusal :=
  finish .advance (if (s.getV x).toNat ≥ 2 then s.setSt (s.getV x) else s)

/-- SKP Vx (43_timers_keypad R205). -/
def execSkp (x : Reg) (s : State) : Host.Outcome State Fault Refusal :=
  if (s.getV x).toNat > 15 then .fault (.keyIndexOutOfRange (s.getV x))
  else finish (skipIf (keyDown s.keys (s.getV x).toNat)) s

/-- SKNP Vx (43_timers_keypad R206). -/
def execSknp (x : Reg) (s : State) : Host.Outcome State Fault Refusal :=
  if (s.getV x).toNat > 15 then .fault (.keyIndexOutOfRange (s.getV x))
  else finish (skipIf (!keyDown s.keys (s.getV x).toNat)) s

/-- LD Vx,K: pc advances at execution, and the first scan is the next step's (43_timers_keypad R207). -/
def execLdVxK (x : Reg) (s : State) : Host.Outcome State Fault Refusal :=
  finish .advance (s.beginWait x)

end Sys2Proof.Machine
end

