-- ==== Sys2Proof/Machine/Step.lean ====
section
/-! DEFINITION. The processing step (30_encoding R86), the block's only transition. -/

namespace Sys2Proof.Machine

/-- `Step` (30_encoding R86). A state with a recorded fault has no further step (60_exceptions R302). Otherwise the
input is latched and the redraw mark cleared; a waiting state only scans the keypad (43_timers_keypad R208); any
other state ticks the timers, fetches, decodes and executes one instruction. A fault reached anywhere discards the
step and is recorded (60_exceptions R301). -/
def step (s : State) : Host.Outcome State Fault Refusal :=
  match s.fault with
  | some f => .fault f
  | none =>
    let begun := s.beginStep
    if begun.wait then .next (waitScan begun)
    else
      let ticked := timerTick begun
      match fetch ticked with
      | .error f => settle s (.fault f)
      | .ok w => settle s (exec (decode ticked.cfg.loose59 w) ticked)

/-- `s` with the instruction word `w` stored at pc, neither waiting nor faulted, so that the very next step runs it.
Where pc is no fetchable address nothing is stored. It stands for a load by the host (log entry 17). -/
def State.withFetchWord (s : State) (nbits w : Nat) : State :=
  let t := { s with wait := false, fault := none }
  if s.pc.toNat + 1 > 0xFFF then t
  else t.setMem (Memory.writeSeq s.mem s.pc.toNat [highByte (tableWord nbits w), lowByte (tableWord nbits w)])

end Sys2Proof.Machine
end

