-- ==== Sys2Proof/Machine/Loader.lean ====
section
/-! DEFINITION. Reset and boot, the host's moves before the first step (70_reset_and_hazards R350 to R355). -/

namespace Sys2Proof.Machine

/-- The state reset leaves before the loader runs: the fields of `State.reset` and memory zero at every address
(70_reset R350). -/
def State.cleared : State :=
  State.reset.setMem (Memory.writeSeq [] 0 (List.replicate 80 0))

/-- Reset of a running or faulted machine (70_reset R350, 60_exceptions R302). The parameters and the host's coming
inputs are not the block's state, so they stay. -/
def applyReset (s : State) : State :=
  { State.cleared with cfg := s.cfg, inputs := s.inputs, inputCount := s.inputCount }

/-- `loadGlyphs()`: the bytes of the parameter `FONT` (70_reset R351). -/
def loadGlyphs (s : State) : State :=
  s.setMem (Memory.writeSeq s.mem 0 s.cfg.font.toList)

/-- The loader's only error (70_reset R352). -/
inductive LoadError where
  /-- The image's end lies beyond memory; no byte is written and the block does not start (70_reset R352, R353). -/
  | programTooLarge
  deriving DecidableEq, Repr

/-- `loadProgram(bytes)` (70_reset R352). -/
def loadProgram (image : List Byte) (s : State) : Except LoadError State :=
  if progBase + image.length > memSize then .error .programTooLarge
  else .ok (s.setMem (Memory.writeSeq s.mem progBase image))

/-- The boot order: reset, glyphs, program (70_reset R354), with the given parameters. -/
def bootWith (cfg : Config) (image : List Byte) : Except LoadError State :=
  loadProgram image (loadGlyphs { State.cleared with cfg := cfg })

/-- The boot with the default parameters. What it answers is a launch (70_reset R355). -/
def boot (image : List Byte) : Except LoadError State :=
  bootWith defaultConfig image

end Sys2Proof.Machine
end

