-- ==== Sys2Proof/Machine/Report.lean ====
section
/-! DEFINITION. What a step returns to the host (10_state R36, 60_exceptions R301, R312), computed from the state at the
end of the step. -/

namespace Sys2Proof.Machine

/-- `requestBeep` (10_state R36; the spec's decision D14, log entry 15), and the port `request_beep` (60_exceptions
R312): ST > 0 in the state at the end of the step, which after a fault is the one the step began in (R301). -/
def State.requestBeep (s : State) : Bool :=
  decide (s.st.toNat > 0)

/-- `requestRedraw` (10_state R36), and the port `request_redraw` (60_exceptions R312): a DRW executed in this step. In a
step that faults none did, whatever mark the state it began in holds, since the step's writes are discarded (R301; log
entry 26). -/
def State.requestRedraw (s : State) : Bool :=
  s.fault.isNone && s.redraw

/-- The record a step returns (10_state R36). The framebuffer view is its list of lit pixels. -/
structure StepOutput where
  requestBeep : Bool
  requestRedraw : Bool
  framebuffer : List (Nat × Nat)
  deriving DecidableEq, Repr

/-- What the host gets from a step: the output record, or the fault outcome instead of it (60_exceptions R301). -/
inductive StepReport where
  | output (o : StepOutput)
  | fault (f : Fault)
  deriving DecidableEq, Repr

/-- The report of the step that ended in `s` (10_state R36, 60_exceptions R301). -/
def State.report (s : State) : StepReport :=
  match s.fault with
  | some f => .fault f
  | none => .output ⟨s.requestBeep, s.requestRedraw, s.fb⟩

/-- The cause code of 60_exceptions R300. -/
def faultCode : Fault → BitVec 3
  | .stackOverflow _ => 1
  | .stackUnderflow _ => 2
  | .memoryOutOfRange _ => 3
  | .fetchOutOfRange _ => 4
  | .keyIndexOutOfRange _ => 5

/-- The recorded information of 60_exceptions R300. -/
def faultInfo : Fault → Word
  | .stackOverflow pc => pc
  | .stackUnderflow pc => pc
  | .memoryOutOfRange addr => BitVec.ofNat 16 addr
  | .fetchOutOfRange pc => pc
  | .keyIndexOutOfRange key => key.setWidth 16

/-- The `fault` port: cause code and information, code 0 for none (60_exceptions R312). -/
def State.faultPort (s : State) : BitVec 3 × Word :=
  match s.fault with
  | some f => (faultCode f, faultInfo f)
  | none => (0, 0)

end Sys2Proof.Machine
end

