-- ==== Sys2Proof/Machine/Run.lean ====
section
/-! DEFINITION. A run of steps, and its end (60_exceptions R316; log entry 27). -/

namespace Sys2Proof.Machine

/-- The state after `n` steps that each answer a next state, if they do. -/
def afterSteps : Nat → State → Option State
  | 0, s => some s
  | n + 1, s =>
    match step s with
    | .next t => afterSteps n t
    | _ => none

/-- The four conditions of the end of a run at address `h`: pc is there, no wait, no fault, and the word there, which
lies in memory, is a jump to itself (60_exceptions R316). -/
def endConditions (h : Addr) (s : State) : Bool :=
  s.pc == h.setWidth 16 && !s.wait && s.fault == none && decide (h.toNat + 1 < memSize)
    && wordOfBytes (Memory.read s.mem h.toNat) (Memory.read s.mem (h.toNat + 1)) == encode (.jp h)

/-- The conditions hold after `n` steps from `start`. -/
def endConditionsAfter (h : Addr) (start : State) (n : Nat) : Bool :=
  match afterSteps n start with
  | some t => endConditions h t
  | none => false

/-- `t` is the end of the run from `start` at address `h`, reached by its step number `n`, counted from 1: the first
state after a step in which the conditions hold (60_exceptions R316). -/
def endOfRun (h : Addr) (start : State) (n : Nat) (t : State) : Prop :=
  0 < n ∧ afterSteps n start = some t ∧ endConditions h t = true ∧
    ∀ m, 0 < m → m < n → endConditionsAfter h start m = false

end Sys2Proof.Machine
end

