-- ==== Sys2Proof/Safety.lean ====
section
/-! DEFINITION. The terms claims are stated in: the parts of the state and what leaves them unchanged, ending with a
next state, the invariant, and the states a run reaches. -/

namespace Sys2Proof.Machine

/-- One part of the state, as a program or the host can tell it apart. -/
inductive Part where
  | reg (r : Reg)
  | pc
  | sp
  | slot (j : Fin 12)
  | index
  | delayTimer
  | soundTimer
  | keys
  | wait
  | waitReg
  | pixel (p : Nat × Nat)
  | redraw
  | fault
  | byte (a : Nat)
  | cfg
  | rnd
  | inputs
  | inputCount
  deriving DecidableEq, Repr

/-- The part is the same in two states. A byte is compared through the model's read of one byte. -/
def Part.same (s t : State) : Part → Prop
  | .reg r => t.getV r = s.getV r
  | .pc => t.pc = s.pc
  | .sp => t.sp = s.sp
  | .slot j => t.stack[j.val] = s.stack[j.val]
  | .index => t.i = s.i
  | .delayTimer => t.dt = s.dt
  | .soundTimer => t.st = s.st
  | .keys => t.keys = s.keys
  | .wait => t.wait = s.wait
  | .waitReg => t.waitReg = s.waitReg
  | .pixel p => Fb.lit t.fb p = Fb.lit s.fb p
  | .redraw => t.redraw = s.redraw
  | .fault => t.fault = s.fault
  | .byte a => Memory.read t.mem a = Memory.read s.mem a
  | .cfg => t.cfg = s.cfg
  | .rnd => t.rnd = s.rnd
  | .inputs => t.inputs = s.inputs
  | .inputCount => t.inputCount = s.inputCount

/-- From `s` to `t` every part is unchanged but those that `may` names. -/
def changesOnly (may : Part → Prop) (s t : State) : Prop :=
  ∀ p : Part, ¬ may p → p.same s t

/-- `exec i s` answers a next state, and that state has the property. -/
def endsNext (i : Instr) (s : State) (post : State → Prop) : Prop :=
  ∃ t, exec i s = .next t ∧ post t

/-- No fault is recorded: the first premise of 00_scope R15. -/
def State.running (s : State) : Prop :=
  s.fault = none

/-- The invariant of the block: memory and framebuffer keep their canonical forms (log entry 16), the screen is at
least as large as a sprite (91 N6), pc is at most 0x10FE (10_state R22), and every stack slot is at most 0x1000, the
largest address a CALL can push (91 N8), and fits the slot width (10_state R24; log entry 18). -/
def State.Inv (s : State) : Prop :=
  Memory.wf s.mem = true ∧ Fb.wf s.cfg s.fb = true ∧ 8 ≤ s.cfg.width ∧ 16 ≤ s.cfg.height
    ∧ s.pc.toNat ≤ 0x10FE
    ∧ ∀ j : Fin 12, s.stack[j.val].toNat ≤ 0x1000 ∧ s.stack[j.val].toNat < 2 ^ s.cfg.slotWidth

/-- The states a run from `s` reaches by steps that answer a next state. -/
inductive Reaches (s : State) : State → Prop where
  | start : Reaches s s
  | more {t u : State} : Reaches s t → step t = .next u → Reaches s u

end Sys2Proof.Machine
end

