-- ==== Sys2Proof/Certificates/Slice0/Obligations.lean ====
section
/-! DEFINITION. The statements for the provers. `endsNext i s post` says that `exec i s` answers a next state with
the property `post`; `changesOnly may s t` says that every part of the state but those `may` names is the same in
`t` as in `s`, a byte of memory being compared through the model's read of one byte. -/

open Sys2Proof Sys2Proof.Machine

/-! ### Encoding -/

/-- 30_encoding sections 3 and 4: decoding the word of a well-formed instruction gives it back, every operand at every
value, for both settings of `LOOSE_5_9`. The patterns are the spec's decision D29 (log entry 7). -/
def Obligations.DecodeInvertsEncode : Prop :=
  ∀ (loose : Bool) (i : Instr), i.wellFormed loose = true → decode loose (encode i) = i

/-- 30_encoding section 3: no bit of a word is dropped by the decoder with exact matching. That the instruction keeps
the ignored y field of a shift and the word of an unknown instruction is the model's choice (log entries 13, 20). -/
def Obligations.EncodeInvertsStrictDecode : Prop :=
  ∀ w : Word, encode (decode false w) = w

/-- 30_encoding R77: decode is total, and what it gives is a well-formed instruction. -/
def Obligations.DecodedInstructionIsWellFormed : Prop :=
  ∀ (loose : Bool) (w : Word), (decode loose w).wellFormed loose = true

/-- 30_encoding R87: the decoder is the first matching row of the opcode map, with the fields of R71, and `Unknown`
where no row matches. -/
def Obligations.DecodeIsFirstMatchingRow : Prop :=
  ∀ (loose : Bool) (w : Word),
    decode loose w =
      match (opcodeMap loose).find? (fun row => w &&& row.mask == row.pattern) with
      | some row => row.instr w
      | none => .unknown w

/-- 30_encoding R75: under both settings of `LOOSE_5_9`, the words that decode to no instruction are the listed ones;
with exact matching they are 17 488 (an inference the spec marks as its own, and its decision D16). -/
def Obligations.UnknownWordsAreTheListedOnes : Prop :=
  (∀ (loose : Bool) (w : Word), decode loose w = .unknown w ↔ isUnknownWord loose w = true)
  ∧ ((List.range 65536).filter (fun k => isUnknownWord false (BitVec.ofNat 16 k))).length = 17488

/-- 30_encoding R76 (the spec's decision D16): `LOOSE_5_9` turns the 5xyn and 9xyn words with n other than 0 from
unknown words into SE Vx,Vy and SNE Vx,Vy, and changes no other word. -/
def Obligations.LooseMatchingChangesOnlyItsWords : Prop :=
  ∀ w : Word,
    if w.toNat / 4096 = 5 ∧ w.toNat % 16 ≠ 0 then
      decode false w = .unknown w ∧ decode true w = .seReg (xField w) (yField w)
    else if w.toNat / 4096 = 9 ∧ w.toNat % 16 ≠ 0 then
      decode false w = .unknown w ∧ decode true w = .sneReg (xField w) (yField w)
    else decode true w = decode false w

/-- 30_encoding R70 and 20_memory R56: an instruction's bytes followed by anything decode to it and leave the rest;
fewer than two bytes are refused. -/
def Obligations.DecodeBytesOfEncodedBytes : Prop :=
  (∀ (loose : Bool) (i : Instr) (rest : List Byte), i.wellFormed loose = true →
    decodeBytes loose (encodeBytes i ++ rest) = .ok (i, rest))
  ∧ ∀ (loose : Bool) (bs : List Byte), bs.length < 2 → decodeBytes loose bs = .error .truncated

/-- 30_encoding R74: words written out from the opcode map decode to the instructions they stand for. -/
def Obligations.WrittenOutWordsDecode : Prop :=
  decode false 0x00E0 = .cls ∧ decode false 0x00EE = .ret ∧ decode false 0x0123 = .sys 0x123
  ∧ decode false 0x2ABC = .call 0xABC ∧ decode false 0x3A42 = .seByte 10 0x42 ∧ decode false 0x8AB4 = .addReg 10 11
  ∧ decode false 0xA2F0 = .ldI 0x2F0 ∧ decode false 0xD123 = .drw 1 2 3 ∧ decode false 0xE29E = .skp 2
  ∧ decode false 0xF355 = .storeRegs 3 ∧ decode false 0xF130 = .unknown 0xF130

/-! ### The step -/

/-- 30_encoding R86: where no fault is recorded and the block is not waiting, a step whose pc is fetchable runs the
instruction that the two bytes at pc decode to. The step adds around it: the input is latched and the redraw mark
cleared, the timers tick, and a fault of the instruction becomes the recorded one over the state the step began
in. -/
def Obligations.StepRunsTheDecodedInstruction : Prop :=
  ∀ (s : State) (i : Instr), s.fault = none → s.wait = false → s.pc.toNat + 1 ≤ 0xFFF →
    decode s.cfg.loose59 (wordOfBytes (Memory.read s.mem s.pc.toNat) (Memory.read s.mem (s.pc.toNat + 1))) = i →
    i.wellFormed s.cfg.loose59 = true ∧
    step s =
      match exec i (timerTick s.beginStep) with
      | .next t => .next t
      | .fault f => .next { s with fault := some f }
      | .refused r => .refused r

/-- 20_memory R58, 60_exceptions R301 (the spec's decisions D5 and D10): a step at a pc above 0xFFE records
FetchOutOfRange and discards everything else, the tick and the latches too. -/
def Obligations.FetchBeyondMemoryIsRecorded : Prop :=
  ∀ s : State, s.fault = none → s.wait = false → s.pc.toNat + 1 > 0xFFF →
    step s = .next { s with fault := some (.fetchOutOfRange s.pc) }

/-- 60_exceptions R301 (the spec's decision D10): a step that ends with a fault recorded leaves all else as it was at
the step's start. -/
def Obligations.FaultDiscardsTheWholeStep : Prop :=
  ∀ (s t : State) (f : Fault), step s = .next t → t.fault = some f → t = { s with fault := some f }

/-- 60_exceptions R302 (the spec's decision D10): a faulted state has no further step. That `step` then answers
`.fault` with the recorded fault is the model's choice (log entry 2). -/
def Obligations.FaultedStateHasNoFurtherStep : Prop :=
  ∀ (s : State) (f : Fault), s.fault = some f → step s = .fault f ∧ ∀ t, step s ≠ .next t

/-- 30_encoding R89, which says that a step always returns unless it raises a fault: a step of a state with no fault
recorded answers a next state. That a step that raises a fault answers one too, with the fault recorded, is the model's
choice (log entry 2). -/
def Obligations.EveryUnfaultedStateSteps : Prop :=
  ∀ s : State, s.fault = none → ∃ t, step s = .next t

/-- 43_timers_keypad R208 (the spec's decision D12): a waiting step latches its input and clears the redraw mark, and
then only scans. The least pressed key goes to the waiting register and ends the wait; with no key pressed nothing
else changes. -/
def Obligations.WaitingStepOnlyScans : Prop :=
  ∀ s : State, s.fault = none → s.wait = true →
    ∃ t, step s = .next t ∧ t.keys = s.nextInput.keys ∧ t.redraw = false ∧
      changesOnly (fun p => p = .keys ∨ p = .rnd ∨ p = .inputs ∨ p = .inputCount ∨ p = .redraw ∨
        p = .wait ∨ p = .reg s.waitReg) s t ∧
      (∀ k : Reg, keyDown s.nextInput.keys k.val = true → (∀ j : Reg, j < k → keyDown s.nextInput.keys j.val = false) →
        t.getV s.waitReg = BitVec.ofNat 8 k.val ∧ t.wait = false) ∧
      ((∀ k : Reg, keyDown s.nextInput.keys k.val = false) →
        t.getV s.waitReg = s.getV s.waitReg ∧ t.wait = true)

/-- 43_timers_keypad R200: in a step that begins not waiting, the instruction runs on a state whose timers have gone
down by one, or stayed at 0, and a step that begins waiting changes neither timer. -/
def Obligations.TimersTickOnceBeforeTheInstruction : Prop :=
  (∀ s : State, s.fault = none → s.wait = false → s.pc.toNat + 1 ≤ 0xFFF →
    ∃ u, u.st.toNat = s.st.toNat - 1 ∧ u.dt.toNat = s.dt.toNat - 1 ∧ u.pc = s.pc ∧ u.mem = s.mem ∧
      changesOnly (fun p => p = .soundTimer ∨ p = .delayTimer ∨ p = .keys ∨ p = .rnd ∨ p = .inputs ∨
        p = .inputCount ∨ p = .redraw) s u ∧
      step s = settle s (exec (decode s.cfg.loose59
        (wordOfBytes (Memory.read u.mem u.pc.toNat) (Memory.read u.mem (u.pc.toNat + 1)))) u))
  ∧ ∀ s t : State, s.wait = true → step s = .next t → t.st = s.st ∧ t.dt = s.dt

/-- 43_timers_keypad R209, 10_state R28 and 30_encoding R86 (the spec's decisions D15 and D24): after a step that records
no fault the keypad is the step's whole snapshot and the random byte the one supplied to it, whatever instruction ran.
How the input is held is the model's choice (log entry 1). -/
def Obligations.KeypadIsTheStepsSnapshot : Prop :=
  ∀ s t : State, step s = .next t → t.fault = none →
    t.keys = s.nextInput.keys ∧ t.rnd = s.nextInput.rnd ∧ t.inputs = s.inputs.tail ∧
    t.inputCount = s.inputCount + 1 ∧
    ∀ inp rest, s.inputs = inp :: rest → t.keys = inp.keys ∧ t.rnd = inp.rnd

/-- 44_display R233, 10_state R31 and 60_exceptions R312 (the spec's decisions D13 and D22): after a step the redraw
request stands exactly if the step recorded no fault, was not waiting and ran DRW, or CLS with `CLS_REDRAW` set. That
it is low after a step that faults, a DRW that faults among them, is read from R301 and R312 (log entry 26). -/
def Obligations.RedrawIsRequestedByItsOwnStep : Prop :=
  ∀ s t : State, step s = .next t →
    let i := decode s.cfg.loose59 (wordOfBytes (Memory.read s.mem s.pc.toNat) (Memory.read s.mem (s.pc.toNat + 1)))
    t.requestRedraw = true ↔
      t.fault = none ∧ s.wait = false ∧ ((∃ x y n, i = .drw x y n) ∨ (i = .cls ∧ s.cfg.clsRedraw = true))

/-- 60_exceptions R316 (the spec's decision D30, log entry 27): where the conditions of the end of a run at h hold, a
step stays there, and changes nothing but the timers, the keys, the redraw mark, which is cleared, and the model's own
input fields. So every state later than the end of a run differs from it in these alone, each timer run down by the
steps taken; and a run has at most one end at h. -/
def Obligations.EndOfRunStays : Prop :=
  (∀ (h : Addr) (s : State), endConditions h s = true →
    ∃ t, step s = .next t ∧ endConditions h t = true ∧ t.redraw = false ∧
      t.st.toNat = s.st.toNat - 1 ∧ t.dt.toNat = s.dt.toNat - 1 ∧
      changesOnly (fun p => p = .soundTimer ∨ p = .delayTimer ∨ p = .keys ∨ p = .redraw ∨ p = .rnd ∨ p = .inputs ∨
        p = .inputCount) s t) ∧
  (∀ (h : Addr) (start t : State) (n : Nat), endOfRun h start n t →
    ∀ k : Nat, ∃ u, afterSteps (n + k) start = some u ∧ endConditions h u = true ∧ (k ≠ 0 → u.redraw = false) ∧
      u.st.toNat = t.st.toNat - k ∧ u.dt.toNat = t.dt.toNat - k ∧
      changesOnly (fun p => p = .soundTimer ∨ p = .delayTimer ∨ p = .keys ∨ p = .redraw ∨ p = .rnd ∨ p = .inputs ∨
        p = .inputCount) t u) ∧
  ∀ (h : Addr) (start t u : State) (n m : Nat), endOfRun h start n t → endOfRun h start m u → n = m ∧ t = u

/-! ### Whole-machine rules -/

/-- The invariant of the block is kept by every step from every state that meets it (10_state R22 and R24, 91 N6 and
N8; the canonical forms are the model's choice, log entry 16, and so is what a slot keeps, log entry 18). -/
def Obligations.StepKeepsTheInvariant : Prop :=
  ∀ s t : State, s.Inv → step s = .next t → t.Inv

/-- The invariant holds at reset. -/
def Obligations.ResetMeetsTheInvariant : Prop :=
  State.reset.Inv

/-- 10_state R30, 44_display: only CLS and DRW change a pixel. -/
def Obligations.OnlyClsAndDrwChangePixels : Prop :=
  ∀ (i : Instr) (s t : State) (p : Nat × Nat), exec i s = .next t → Fb.lit t.fb p ≠ Fb.lit s.fb p →
    i = .cls ∨ ∃ x y n, i = .drw x y n

/-- 20_memory R59: only LD B,Vx and LD [I],Vx change a byte of memory. -/
def Obligations.OnlyBcdAndStoreChangeMemory : Prop :=
  ∀ (i : Instr) (s t : State) (a : Nat), exec i s = .next t → Memory.read t.mem a ≠ Memory.read s.mem a →
    (∃ x, i = .ldB x) ∨ ∃ x, i = .storeRegs x

/-- 10_state R24 to R29: only LD I, ADD I and LD F change I; only CALL and RET change the stack pointer, and only CALL
a slot, never slot 0; only LD DT and LD ST change a timer; only LD Vx,K changes the wait state, and none ends it. -/
def Obligations.ControlStateHasItsOwnWriters : Prop :=
  ∀ (i : Instr) (s t : State), exec i s = .next t →
    (t.i ≠ s.i → (∃ nnn, i = .ldI nnn) ∨ (∃ x, i = .addI x) ∨ ∃ x, i = .ldF x) ∧
    (t.sp ≠ s.sp → i = .ret ∨ ∃ nnn, i = .call nnn) ∧
    (∀ j : Fin 12, t.stack[j.val] ≠ s.stack[j.val] → j ≠ 0 ∧ ∃ nnn, i = .call nnn) ∧
    (t.dt ≠ s.dt → ∃ x, i = .ldDt x) ∧
    (t.st ≠ s.st → ∃ x, i = .ldSt x) ∧
    (t.wait ≠ s.wait ∨ t.waitReg ≠ s.waitReg → t.wait = true ∧ ∃ x, i = .ldVxK x) ∧
    t.keys = s.keys ∧ t.fault = s.fault

/-- 10_state R21: no instruction but the six that write a flag, and the one naming VF as its destination, changes VF. -/
def Obligations.OnlyFlagWritersAndDestinationsChangeVF : Prop :=
  ∀ (i : Instr) (s t : State), exec i s = .next t → t.getV flagReg ≠ s.getV flagReg →
    (∃ x y, i = .addReg x y ∨ i = .subReg x y ∨ i = .shr x y ∨ i = .subnReg x y ∨ i = .shl x y)
    ∨ (∃ x y n, i = .drw x y n)
    ∨ (∃ kk, i = .ldByte flagReg kk ∨ i = .addByte flagReg kk ∨ i = .rnd flagReg kk)
    ∨ (∃ y, i = .ldReg flagReg y ∨ i = .orReg flagReg y ∨ i = .andReg flagReg y ∨ i = .xorReg flagReg y)
    ∨ i = .ldVxDt flagReg ∨ i = .loadRegs flagReg

/-- 60_exceptions R300 (the spec's decisions D3, D4, D5 and D9): `exec` answers a fault exactly in the table's
conditions, with the table's information, and it never refuses. -/
def Obligations.FaultsAreExactlyTheTables : Prop :=
  ∀ (i : Instr) (s : State),
    (∀ r, exec i s ≠ .refused r) ∧
    ∀ f : Fault, exec i s = .fault f ↔
      ((∃ nnn, i = .call nnn) ∧ s.sp = 11 ∧ f = .stackOverflow s.pc)
      ∨ (i = .ret ∧ s.sp = 0 ∧ f = .stackUnderflow s.pc)
      ∨ ((∃ x, i = .ldB x) ∧ s.i.toNat + 2 > 0xFFF ∧ f = .memoryOutOfRange (max s.i.toNat 0x1000))
      ∨ (∃ x : Reg, (i = .storeRegs x ∨ i = .loadRegs x) ∧ s.i.toNat + x.val > 0xFFF ∧
          f = .memoryOutOfRange (max s.i.toNat 0x1000))
      ∨ (∃ (x y : Reg) (n : Nibble), i = .drw x y n ∧ 1 ≤ n.val ∧ s.i.toNat + n.val - 1 > 0xFFF ∧
          f = .memoryOutOfRange (max s.i.toNat 0x1000))
      ∨ (∃ x, (i = .skp x ∨ i = .sknp x) ∧ (s.getV x).toNat > 15 ∧ f = .keyIndexOutOfRange (s.getV x))

/-- 30_encoding R88: only RND reads the step's random byte. With another random byte in the state every other
instruction ends as it did, that byte apart. -/
def Obligations.OnlyRndReadsTheRandomByte : Prop :=
  ∀ (i : Instr) (s : State) (b : Byte), (∀ x kk, i ≠ .rnd x kk) →
    exec i (s.setRnd b) =
      match exec i s with
      | .next t => .next (t.setRnd b)
      | .fault f => .fault f
      | .refused r => .refused r

/-- 10_state R28: only SKP and SKNP read the keypad. With another snapshot in the state every other instruction ends
as it did, the keypad apart. -/
def Obligations.OnlyKeySkipsReadTheKeypad : Prop :=
  ∀ (i : Instr) (s : State) (ks : BitVec 16), (∀ x, i ≠ .skp x ∧ i ≠ .sknp x) →
    exec i (s.setKeys ks) =
      match exec i s with
      | .next t => .next (t.setKeys ks)
      | .fault f => .fault f
      | .refused r => .refused r

/-- No step changes the parameters (log entry 3, the model's choice) or slot 0 of the stack (10_state R24, an
inference the spec marks as its own). -/
def Obligations.StepKeepsParametersAndSlotZero : Prop :=
  ∀ s t : State, step s = .next t → t.cfg = s.cfg ∧ t.stack[0] = s.stack[0]

/-! ### Control flow -/

/-- 40_control_flow R100 (the spec's decision D17) and 30_encoding R75: SYS and unknown words only advance. -/
def Obligations.SysAndUnknownOnlyAdvance : Prop :=
  ∀ (s : State) (nnn : Addr) (w : Word),
    endsNext (.sys nnn) s (fun t => t.pc = s.pc + 2 ∧ changesOnly (fun p => p = .pc) s t) ∧
    endsNext (.unknown w) s (fun t => t.pc = s.pc + 2 ∧ changesOnly (fun p => p = .pc) s t)

/-- 40_control_flow R102. -/
def Obligations.JpSetsPc : Prop :=
  ∀ (s : State) (nnn : Addr),
    (encode (.jp nnn)).toNat = 0x1000 + nnn.toNat ∧
    endsNext (.jp nnn) s (fun t => t.pc.toNat = nnn.toNat ∧ changesOnly (fun p => p = .pc) s t)

/-- 40_control_flow R108. -/
def Obligations.JpV0SetsPcToTheUnmaskedSum : Prop :=
  ∀ (s : State) (nnn : Addr),
    (encode (.jpV0 nnn)).toNat = 0xB000 + nnn.toNat ∧
    endsNext (.jpV0 nnn) s (fun t => t.pc.toNat = (s.getV 0).toNat + nnn.toNat ∧ changesOnly (fun p => p = .pc) s t)

/-- 40_control_flow R103 (the overflow fault is the spec's decision D3). The spec's slot has 16 bits (its decision D21)
and keeps the pushed address whole. That a slot of another width keeps the low bits is the model's choice (log entry
18). -/
def Obligations.CallPushesAndJumps : Prop :=
  ∀ (s : State) (nnn : Addr),
    (s.sp ≠ 11 → endsNext (.call nnn) s (fun t =>
      t.pc.toNat = nnn.toNat ∧ t.sp.val = s.sp.val + 1 ∧
      t.stack[t.sp.val].toNat = (s.pc + 2).toNat % 2 ^ s.cfg.slotWidth ∧
      (16 ≤ s.cfg.slotWidth → t.stack[t.sp.val] = s.pc + 2) ∧
      changesOnly (fun p => p = .pc ∨ p = .sp ∨ p = .slot t.sp) s t)) ∧
    (s.sp = 11 → exec (.call nnn) s = .fault (.stackOverflow s.pc))

/-- 40_control_flow R101 (the underflow fault is the spec's decision D4). -/
def Obligations.RetPopsAndJumps : Prop :=
  ∀ s : State,
    (s.sp ≠ 0 → endsNext .ret s (fun t =>
      t.pc = s.stack[s.sp.val] ∧ t.sp.val + 1 = s.sp.val ∧ changesOnly (fun p => p = .pc ∨ p = .sp) s t)) ∧
    (s.sp = 0 → exec .ret s = .fault (.stackUnderflow s.pc))

/-- 95_test_vectors EX-3: a CALL and then a RET come back to the instruction after the CALL with the stack pointer as
it was; only pc and the slot used differ. The spec's slot has 16 bits (its decision D21) and keeps the address whole.
That a slot narrower than the address keeps its low bits only is the model's choice (log entry 18). -/
def Obligations.CallThenRetComesBack : Prop :=
  ∀ (s : State) (nnn : Addr), s.sp ≠ 11 →
    ∃ t u, exec (.call nnn) s = .next t ∧ exec .ret t = .next u ∧
      u.pc.toNat = (s.pc + 2).toNat % 2 ^ s.cfg.slotWidth ∧ (16 ≤ s.cfg.slotWidth → u.pc = s.pc + 2) ∧
      changesOnly (fun p => p = .pc ∨ p = .slot t.sp) s u

/-- 40_control_flow R104 and R105. -/
def Obligations.SkipsOnAByteCompare : Prop :=
  ∀ (s : State) (x : Reg) (kk : Byte),
    (encode (.seByte x kk)).toNat = 0x3000 + x.val * 256 + kk.toNat ∧
    (encode (.sneByte x kk)).toNat = 0x4000 + x.val * 256 + kk.toNat ∧
    endsNext (.seByte x kk) s (fun t =>
      t.pc = (if s.getV x = kk then s.pc + 4 else s.pc + 2) ∧ changesOnly (fun p => p = .pc) s t) ∧
    endsNext (.sneByte x kk) s (fun t =>
      t.pc = (if s.getV x ≠ kk then s.pc + 4 else s.pc + 2) ∧ changesOnly (fun p => p = .pc) s t)

/-- 40_control_flow R106 and R107, the encodings of both settings of `LOOSE_5_9` among them. -/
def Obligations.SkipsOnARegisterCompare : Prop :=
  ∀ (s : State) (x y : Reg),
    (encode (.seReg x y)).toNat = 0x5000 + x.val * 256 + y.val * 16 ∧
    (encode (.sneReg x y)).toNat = 0x9000 + x.val * 256 + y.val * 16 ∧
    (∀ n : Nibble, decode true (wordXyn 0x5 x y n) = .seReg x y ∧ decode true (wordXyn 0x9 x y n) = .sneReg x y) ∧
    endsNext (.seReg x y) s (fun t =>
      t.pc = (if s.getV x = s.getV y then s.pc + 4 else s.pc + 2) ∧ changesOnly (fun p => p = .pc) s t) ∧
    endsNext (.sneReg x y) s (fun t =>
      t.pc = (if s.getV x ≠ s.getV y then s.pc + 4 else s.pc + 2) ∧ changesOnly (fun p => p = .pc) s t)

/-! ### Register loads and arithmetic -/

/-- 41_register_alu R132 and R133: no flag, the sum modulo 256. -/
def Obligations.ByteImmediatesLoadAndAdd : Prop :=
  ∀ (s : State) (x : Reg) (kk : Byte),
    (encode (.ldByte x kk)).toNat = 0x6000 + x.val * 256 + kk.toNat ∧
    (encode (.addByte x kk)).toNat = 0x7000 + x.val * 256 + kk.toNat ∧
    endsNext (.ldByte x kk) s (fun t =>
      t.getV x = kk ∧ t.pc = s.pc + 2 ∧ changesOnly (fun p => p = .pc ∨ p = .reg x) s t) ∧
    endsNext (.addByte x kk) s (fun t =>
      (t.getV x).toNat = ((s.getV x).toNat + kk.toNat) % 256 ∧ t.pc = s.pc + 2 ∧
      changesOnly (fun p => p = .pc ∨ p = .reg x) s t)

/-- 41_register_alu R134 to R137: the destination alone changes, so VF is not reset. -/
def Obligations.CopyAndBitwiseWriteTheDestinationAlone : Prop :=
  ∀ (s : State) (x y : Reg),
    (∀ (i : Instr) (n : Nat) (r : Byte),
      ((i, n, r) = (.ldReg x y, 0, s.getV y) ∨ (i, n, r) = (.orReg x y, 1, s.getV x ||| s.getV y) ∨
       (i, n, r) = (.andReg x y, 2, s.getV x &&& s.getV y) ∨ (i, n, r) = (.xorReg x y, 3, s.getV x ^^^ s.getV y)) →
      (encode i).toNat = 0x8000 + x.val * 256 + y.val * 16 + n ∧
      endsNext i s (fun t =>
        t.getV x = r ∧ t.pc = s.pc + 2 ∧ changesOnly (fun p => p = .pc ∨ p = .reg x) s t))

/-- 41_register_alu R138, both readings of `VF_ALIAS`: the low byte of the natural sum, and the carry. -/
def Obligations.AddSetsSumAndCarry : Prop :=
  ∀ (s : State) (x y : Reg),
    let sum := (s.getV x).toNat + (s.getV y).toNat
    let carry : Nat := if sum > 255 then 1 else 0
    (encode (.addReg x y)).toNat = 0x8004 + x.val * 256 + y.val * 16 ∧
    endsNext (.addReg x y) s (fun t =>
      (t.getV x).toNat = (if x = flagReg ∧ s.cfg.vfAlias = .operandsFirst then carry else sum % 256) ∧
      (x ≠ flagReg → (t.getV flagReg).toNat = carry) ∧
      t.pc = s.pc + 2 ∧ changesOnly (fun p => p = .pc ∨ p = .reg x ∨ p = .reg flagReg) s t)

/-- 41_register_alu R139, both readings of `VF_ALIAS`: strict flag, wrapping difference, and VF as an operand. -/
def Obligations.SubSetsDifferenceAndStrictFlag : Prop :=
  ∀ (s : State) (x y : Reg),
    let f : Byte := if (s.getV x).toNat > (s.getV y).toNat then 1 else 0
    (encode (.subReg x y)).toNat = 0x8005 + x.val * 256 + y.val * 16 ∧
    endsNext (.subReg x y) s (fun t =>
      t.getV x = (match s.cfg.vfAlias with
        | .sequential => (if x = flagReg then f else s.getV x) - (if y = flagReg then f else s.getV y)
        | .operandsFirst => if x = flagReg then f else s.getV x - s.getV y) ∧
      (x ≠ flagReg → t.getV flagReg = f) ∧
      t.pc = s.pc + 2 ∧ changesOnly (fun p => p = .pc ∨ p = .reg x ∨ p = .reg flagReg) s t)

/-- 41_register_alu R141, both readings of `VF_ALIAS`: the difference the other way round. -/
def Obligations.SubnSetsReverseDifferenceAndStrictFlag : Prop :=
  ∀ (s : State) (x y : Reg),
    let f : Byte := if (s.getV y).toNat > (s.getV x).toNat then 1 else 0
    (encode (.subnReg x y)).toNat = 0x8007 + x.val * 256 + y.val * 16 ∧
    endsNext (.subnReg x y) s (fun t =>
      t.getV x = (match s.cfg.vfAlias with
        | .sequential => (if y = flagReg then f else s.getV y) - (if x = flagReg then f else s.getV x)
        | .operandsFirst => if x = flagReg then f else s.getV y - s.getV x) ∧
      (x ≠ flagReg → t.getV flagReg = f) ∧
      t.pc = s.pc + 2 ∧ changesOnly (fun p => p = .pc ∨ p = .reg x ∨ p = .reg flagReg) s t)

/-- 41_register_alu R140 and R142 (that y is ignored is the spec's decision D2): the shift is in place by one, and VF
is the bit shifted out; both readings of `VF_ALIAS`. -/
def Obligations.ShiftsMoveOneBitThroughVF : Prop :=
  ∀ (s : State) (x y : Reg),
    let v := (s.getV x).toNat
    endsNext (.shr x y) s (fun t =>
      (t.getV x).toNat = (if x ≠ flagReg then v / 2
        else match s.cfg.vfAlias with
          | .sequential => 0
          | .operandsFirst => v % 2) ∧
      (x ≠ flagReg → (t.getV flagReg).toNat = v % 2) ∧
      t.pc = s.pc + 2 ∧ changesOnly (fun p => p = .pc ∨ p = .reg x ∨ p = .reg flagReg) s t) ∧
    endsNext (.shl x y) s (fun t =>
      (t.getV x).toNat = (if x ≠ flagReg then v * 2 % 256
        else match s.cfg.vfAlias with
          | .sequential => v / 128 * 2
          | .operandsFirst => v / 128) ∧
      (x ≠ flagReg → (t.getV flagReg).toNat = v / 128) ∧
      t.pc = s.pc + 2 ∧ changesOnly (fun p => p = .pc ∨ p = .reg x ∨ p = .reg flagReg) s t)

/-- 41_register_alu R143 (the random byte is held in the state by the model's choice, log entry 1): every bit of the
result is the mask's bit and the random byte's, whatever that byte is. -/
def Obligations.RndMasksTheRandomByte : Prop :=
  ∀ (s : State) (x : Reg) (kk : Byte),
    endsNext (.rnd x kk) s (fun t =>
      (∀ k : Nat, (t.getV x).getLsbD k = (s.rnd.getLsbD k && kk.getLsbD k)) ∧
      t.pc = s.pc + 2 ∧ changesOnly (fun p => p = .pc ∨ p = .reg x) s t)

/-! ### Index and memory transfer -/

/-- 42_index_memory R170 and R172: no mask on the glyph address. -/
def Obligations.LdIAndLdFSetTheIndex : Prop :=
  ∀ (s : State) (nnn : Addr) (x : Reg),
    (encode (.ldI nnn)).toNat = 0xA000 + nnn.toNat ∧ (encode (.ldF x)).toNat = 0xF029 + x.val * 256 ∧
    endsNext (.ldI nnn) s (fun t =>
      t.i.toNat = nnn.toNat ∧ t.pc = s.pc + 2 ∧ changesOnly (fun p => p = .pc ∨ p = .index) s t) ∧
    endsNext (.ldF x) s (fun t =>
      t.i.toNat = (s.getV x).toNat * 5 ∧ t.pc = s.pc + 2 ∧ changesOnly (fun p => p = .pc ∨ p = .index) s t)

/-- 42_index_memory R171 (the wrap is the spec's decision D8): VF is unchanged. -/
def Obligations.AddIWrapsAtSixteenBits : Prop :=
  ∀ (s : State) (x : Reg),
    endsNext (.addI x) s (fun t =>
      t.i.toNat = (s.i.toNat + (s.getV x).toNat) % 65536 ∧ t.pc = s.pc + 2 ∧
      changesOnly (fun p => p = .pc ∨ p = .index) s t)

/-- 42_index_memory R173 (the fault is the spec's decision D5): three digits at I, or no byte at all. -/
def Obligations.LdBStoresThreeDigits : Prop :=
  ∀ (s : State) (x : Reg),
    let a := dataAddr s 0
    let v := (s.getV x).toNat
    if a + 2 ≤ 0xFFF then
      endsNext (.ldB x) s (fun t =>
        (Memory.read t.mem a).toNat = v / 100 ∧ (Memory.read t.mem (a + 1)).toNat = v / 10 % 10 ∧
        (Memory.read t.mem (a + 2)).toNat = v % 10 ∧ t.pc = s.pc + 2 ∧
        changesOnly (fun p => p = .pc ∨ ∃ k, k < 3 ∧ p = .byte (a + k)) s t)
    else exec (.ldB x) s = .fault (.memoryOutOfRange (max a 0x1000))

/-- 42_index_memory R174 (the fault is the spec's decision D5): V0 to Vx at I upward, I unchanged, or no byte at
all. -/
def Obligations.StoreRegsWritesV0ToVx : Prop :=
  ∀ (s : State) (x : Reg),
    let a := dataAddr s 0
    if a + x.val ≤ 0xFFF then
      endsNext (.storeRegs x) s (fun t =>
        (∀ r : Reg, r ≤ x → Memory.read t.mem (a + r.val) = s.getV r) ∧ t.pc = s.pc + 2 ∧
        changesOnly (fun p => p = .pc ∨ ∃ r : Reg, r ≤ x ∧ p = .byte (a + r.val)) s t)
    else exec (.storeRegs x) s = .fault (.memoryOutOfRange (max a 0x1000))

/-- 42_index_memory R175 (the fault is the spec's decision D5): V0 to Vx from I upward, I and memory unchanged. -/
def Obligations.LoadRegsReadsV0ToVx : Prop :=
  ∀ (s : State) (x : Reg),
    let a := dataAddr s 0
    if a + x.val ≤ 0xFFF then
      endsNext (.loadRegs x) s (fun t =>
        (∀ r : Reg, r ≤ x → t.getV r = Memory.read s.mem (a + r.val)) ∧ t.pc = s.pc + 2 ∧
        changesOnly (fun p => p = .pc ∨ ∃ r : Reg, r ≤ x ∧ p = .reg r) s t)
    else exec (.loadRegs x) s = .fault (.memoryOutOfRange (max a 0x1000))

/-- 42_index_memory R174 and R175: registers stored and then loaded through the same I come back, whatever the
registers, pc and timers hold in between. -/
def Obligations.StoredRegistersLoadBack : Prop :=
  ∀ (s t u : State) (x : Reg), exec (.storeRegs x) s = .next t → u.mem = t.mem → u.i = t.i →
    endsNext (.loadRegs x) u (fun w => ∀ r : Reg, r ≤ x → w.getV r = s.getV r)

/-- 20_memory R64 (the spec's decision D23): a fetch sees the bytes an earlier instruction stored. -/
def Obligations.FetchSeesStoredBytes : Prop :=
  ∀ (s t u : State) (x r q : Reg), exec (.storeRegs x) s = .next t → u.mem = t.mem →
    q ≤ x → q.val = r.val + 1 → u.pc.toNat = s.i.toNat + r.val →
    fetch u = .ok (wordOfBytes (s.getV r) (s.getV q))

/-! ### Timers, keypad and wait -/

/-- 43_timers_keypad R202, R203 and R204: DT as it stands when the instruction runs, and a sound timer that takes only
a value of at least 2. -/
def Obligations.TimerInstructionsReadAndSet : Prop :=
  ∀ (s : State) (x : Reg),
    (encode (.ldVxDt x)).toNat = 0xF007 + x.val * 256 ∧ (encode (.ldDt x)).toNat = 0xF015 + x.val * 256 ∧
    (encode (.ldSt x)).toNat = 0xF018 + x.val * 256 ∧
    endsNext (.ldVxDt x) s (fun t =>
      t.getV x = s.dt ∧ t.pc = s.pc + 2 ∧ changesOnly (fun p => p = .pc ∨ p = .reg x) s t) ∧
    endsNext (.ldDt x) s (fun t =>
      t.dt = s.getV x ∧ t.pc = s.pc + 2 ∧ changesOnly (fun p => p = .pc ∨ p = .delayTimer) s t) ∧
    endsNext (.ldSt x) s (fun t =>
      t.st = (if (s.getV x).toNat ≥ 2 then s.getV x else s.st) ∧ t.pc = s.pc + 2 ∧
      changesOnly (fun p => p = .pc ∨ p = .soundTimer) s t)

/-- 43_timers_keypad R205 and R206 (the fault is the spec's decision D9). -/
def Obligations.KeySkipsTestOneKey : Prop :=
  ∀ (s : State) (x : Reg),
    if (s.getV x).toNat ≤ 15 then
      endsNext (.skp x) s (fun t =>
        t.pc = (if s.keys.getLsbD (s.getV x).toNat = true then s.pc + 4 else s.pc + 2) ∧
        changesOnly (fun p => p = .pc) s t) ∧
      endsNext (.sknp x) s (fun t =>
        t.pc = (if s.keys.getLsbD (s.getV x).toNat = true then s.pc + 2 else s.pc + 4) ∧
        changesOnly (fun p => p = .pc) s t)
    else exec (.skp x) s = .fault (.keyIndexOutOfRange (s.getV x)) ∧
      exec (.sknp x) s = .fault (.keyIndexOutOfRange (s.getV x))

/-- 43_timers_keypad R207 (the spec's decision D11): pc advances at execution and Vx keeps its value. -/
def Obligations.LdVxKEntersTheWait : Prop :=
  ∀ (s : State) (x : Reg),
    endsNext (.ldVxK x) s (fun t =>
      t.wait = true ∧ t.waitReg = x ∧ t.pc = s.pc + 2 ∧
      changesOnly (fun p => p = .pc ∨ p = .wait ∨ p = .waitReg) s t)

/-! ### Display -/

/-- 44_display R231 (`CLS_REDRAW` is the spec's decision D13). -/
def Obligations.ClsClearsEveryPixel : Prop :=
  ∀ s : State,
    endsNext .cls s (fun t =>
      (∀ p, Fb.lit t.fb p = false) ∧ t.redraw = (s.redraw || s.cfg.clsRedraw) ∧ t.pc = s.pc + 2 ∧
      changesOnly (fun p => p = .pc ∨ p = .redraw ∨ ∃ q, p = .pixel q) s t)

/-- 44_display R232, both readings of `VF_ALIAS` (the fault is the spec's decision D5, the sizes N6): each pixel a
sprite bit of 1 falls on is inverted, every other keeps its value, and VF tells whether any inverted pixel was 1. -/
def Obligations.DrwXorsTheSprite : Prop :=
  ∀ (s : State) (x y : Reg) (n : Nibble),
    let a := dataAddr s 0
    let coord : Reg → Nat := fun r =>
      if r = flagReg ∧ s.cfg.vfAlias = .sequential then 0 else (s.getV r).toNat
    let hit : Nat × Nat → Prop := fun p => ∃ row b : Nat, row < n.val ∧ b < 8 ∧
      p = ((coord x + b) % s.cfg.width, (coord y + row) % s.cfg.height) ∧
      (Memory.read s.mem (a + row)).getLsbD (7 - b) = true
    (n.val = 0 ∨ a + n.val - 1 ≤ 0xFFF → 8 ≤ s.cfg.width → 16 ≤ s.cfg.height →
      endsNext (.drw x y n) s (fun t =>
        (∀ p, hit p → Fb.lit t.fb p = !Fb.lit s.fb p) ∧
        ((∃ p, hit p ∧ Fb.lit s.fb p = true) → t.getV flagReg = 1) ∧
        ((∀ p, hit p → Fb.lit s.fb p = false) → t.getV flagReg = 0) ∧
        t.redraw = true ∧ t.pc = s.pc + 2 ∧
        changesOnly (fun q => q = .pc ∨ q = .redraw ∨ q = .reg flagReg ∨ ∃ p, hit p ∧ q = .pixel p) s t)) ∧
    (1 ≤ n.val → a + n.val - 1 > 0xFFF →
      exec (.drw x y n) s = .fault (.memoryOutOfRange (max a 0x1000)))

/-- 95_test_vectors EX-7: the same sprite drawn twice leaves every pixel as it was. It asks for coordinates that do
not come from VF, or the Sequential reading, in which VF is 0 when they are read. -/
def Obligations.DrawingTwiceRestoresTheScreen : Prop :=
  ∀ (s t : State) (x y : Reg) (n : Nibble), 8 ≤ s.cfg.width → 16 ≤ s.cfg.height →
    (x ≠ flagReg ∧ y ≠ flagReg) ∨ s.cfg.vfAlias = .sequential →
    exec (.drw x y n) s = .next t →
    endsNext (.drw x y n) t (fun u => ∀ p, Fb.lit u.fb p = Fb.lit s.fb p)

/-! ### Reset and boot -/

/-- 10_state R37, 70_reset R350 and 60_exceptions R302. What reset and the glyph load leave is `State.reset`: that it is
the state AFTER the glyph load, with an empty image, is the model's reading (log entry 19). And what the reset of any
machine, running, waiting or faulted, leaves before the glyph load: no fault, the values of R350, memory zero
everywhere; that the parameters and the coming inputs stay is the model's choice (log entry 19). pc and sp are the
source's; the zeros are the spec's decision D18, the font bytes D20 and the parameters' defaults D1, D13, D16, D19 and
D21 (log entries 4, 5, 6 and 18). -/
def Obligations.ResetValues : Prop :=
  (let s := State.reset
   s.pc = 0x200 ∧ s.sp = 0 ∧ (∀ r : Reg, s.getV r = 0) ∧ (∀ j : Fin 12, s.stack[j.val] = 0) ∧ s.i = 0 ∧ s.dt = 0 ∧
   s.st = 0 ∧ s.keys = 0 ∧ s.wait = false ∧ s.waitReg = 0 ∧ (∀ p, Fb.lit s.fb p = false) ∧ s.redraw = false ∧
   s.fault = none ∧ (∀ a, a < 80 → Memory.read s.mem a = fontBytes.getD a 0) ∧
   (∀ a, 80 ≤ a → Memory.read s.mem a = 0) ∧ s.cfg = ⟨.sequential, false, false, 64, 32, ⟨⟨fontBytes⟩, rfl⟩, 16⟩) ∧
  ∀ s : State,
    let t := applyReset s
    t.pc = 0x200 ∧ t.sp = 0 ∧ (∀ r : Reg, t.getV r = 0) ∧ (∀ j : Fin 12, t.stack[j.val] = 0) ∧ t.i = 0 ∧ t.dt = 0 ∧
    t.st = 0 ∧ t.keys = 0 ∧ t.wait = false ∧ t.waitReg = 0 ∧ (∀ p, Fb.lit t.fb p = false) ∧ t.redraw = false ∧
    t.fault = none ∧ (∀ a, Memory.read t.mem a = 0) ∧
    t.cfg = s.cfg ∧ t.inputs = s.inputs ∧ t.inputCount = s.inputCount

/-- 70_reset R352: the bounds of a program image, and no write on failure. -/
def Obligations.LoadProgramBounds : Prop :=
  ∀ (image : List Byte) (s : State),
    if 0x200 + image.length > 4096 then loadProgram image s = .error .programTooLarge
    else ∃ t, loadProgram image s = .ok t ∧
      (∀ k : Nat, ∀ h : k < image.length, Memory.read t.mem (0x200 + k) = image[k]) ∧
      changesOnly (fun p => ∃ k, k < image.length ∧ p = .byte (0x200 + k)) s t

/-- 70_reset R351 and 10_state R38, whatever 80 bytes the parameter `FONT` holds (R40, the spec's decision D20): the
glyph load writes the font and nothing else. -/
def Obligations.LoadGlyphsWritesTheFont : Prop :=
  ∀ s : State,
    (∀ k : Nat, ∀ h : k < 80, Memory.read (loadGlyphs s).mem k = s.cfg.font[k]) ∧
    changesOnly (fun p => ∃ k, k < 80 ∧ p = .byte k) s (loadGlyphs s)

/-- 70_reset R354, R355 and 10_state R37 (the spec's decisions D18, D20 and D26): the boot of an image that fits is
`State.reset` with the image in memory. -/
def Obligations.BootIsResetWithTheImage : Prop :=
  ∀ image : List Byte, image.length ≤ 3584 →
    ∃ t, boot image = .ok t ∧ t.Inv ∧
      (∀ k : Nat, ∀ h : k < image.length, Memory.read t.mem (0x200 + k) = image[k]) ∧
      changesOnly (fun p => ∃ k, k < image.length ∧ p = .byte (0x200 + k)) State.reset t
end

