-- ==== Sys2Proof/Laws/Decode.lean ====
section
/-! SUPPORT. The fields of an assembled word and the bytes of a word: the facts a proof about decoding cites. -/

namespace Sys2Proof

theorem toNibble_val (r : Fin 16) : toNibble r.val = r := by
  simp [toNibble, Fin.ext_iff, Fin.ofNat]

/-- A field of a word given as a natural number below 2^16. -/
theorem bits_ofNat (k hi lo : Nat) (h : k < 65536) :
    bits (BitVec.ofNat 16 k) hi lo = k / 2 ^ lo % 2 ^ (hi - lo + 1) := by
  have : (BitVec.ofNat 16 k).toNat = k := by simp; omega
  rw [bits, this]

/-! ### Format `xyn` -/

theorem wordXyn_toNat (op : Nat) (x y : Reg) (n : Nibble) (h : op < 16) :
    (wordXyn op x y n).toNat = op * 4096 + x.val * 256 + y.val * 16 + n.val := by
  simp only [wordXyn, BitVec.toNat_ofNat]
  omega

@[simp] theorem opField_wordXyn (op : Nat) (x y : Reg) (n : Nibble) (h : op < 16) :
    opField (wordXyn op x y n) = op := by
  simp only [opField, bits, wordXyn_toNat op x y n h]
  omega

@[simp] theorem xField_wordXyn (op : Nat) (x y : Reg) (n : Nibble) (h : op < 16) :
    xField (wordXyn op x y n) = x := by
  have : bits (wordXyn op x y n) 11 8 = x.val := by
    simp only [bits, wordXyn_toNat op x y n h]
    omega
  rw [xField, this, toNibble_val]

@[simp] theorem yField_wordXyn (op : Nat) (x y : Reg) (n : Nibble) (h : op < 16) :
    yField (wordXyn op x y n) = y := by
  have : bits (wordXyn op x y n) 7 4 = y.val := by
    simp only [bits, wordXyn_toNat op x y n h]
    omega
  rw [yField, this, toNibble_val]

@[simp] theorem bits_n_wordXyn (op : Nat) (x y : Reg) (n : Nibble) (h : op < 16) :
    bits (wordXyn op x y n) 3 0 = n.val := by
  simp only [bits, wordXyn_toNat op x y n h]
  omega

@[simp] theorem nField_wordXyn (op : Nat) (x y : Reg) (n : Nibble) (h : op < 16) :
    nField (wordXyn op x y n) = n := by
  rw [nField, bits_n_wordXyn op x y n h, toNibble_val]

/-! ### Formats `xkk` and `x` -/

theorem wordXkk_toNat (op : Nat) (x : Reg) (kk : Byte) (h : op < 16) :
    (wordXkk op x kk).toNat = op * 4096 + x.val * 256 + kk.toNat := by
  have := kk.isLt
  simp only [wordXkk, BitVec.toNat_ofNat]
  omega

@[simp] theorem opField_wordXkk (op : Nat) (x : Reg) (kk : Byte) (h : op < 16) :
    opField (wordXkk op x kk) = op := by
  have := kk.isLt
  simp only [opField, bits, wordXkk_toNat op x kk h]
  omega

@[simp] theorem xField_wordXkk (op : Nat) (x : Reg) (kk : Byte) (h : op < 16) :
    xField (wordXkk op x kk) = x := by
  have := kk.isLt
  have hb : bits (wordXkk op x kk) 11 8 = x.val := by
    simp only [bits, wordXkk_toNat op x kk h]
    omega
  rw [xField, hb, toNibble_val]

@[simp] theorem bits_kk_wordXkk (op : Nat) (x : Reg) (kk : Byte) (h : op < 16) :
    bits (wordXkk op x kk) 7 0 = kk.toNat := by
  have := kk.isLt
  simp only [bits, wordXkk_toNat op x kk h]
  omega

@[simp] theorem kkField_wordXkk (op : Nat) (x : Reg) (kk : Byte) (h : op < 16) :
    kkField (wordXkk op x kk) = kk := by
  rw [kkField, bits_kk_wordXkk op x kk h, BitVec.ofNat_toNat, BitVec.setWidth_eq]

/-! ### Format `nnn` -/

theorem wordNnn_toNat (op : Nat) (nnn : Addr) (h : op < 16) :
    (wordNnn op nnn).toNat = op * 4096 + nnn.toNat := by
  have := nnn.isLt
  simp only [wordNnn, BitVec.toNat_ofNat]
  omega

@[simp] theorem opField_wordNnn (op : Nat) (nnn : Addr) (h : op < 16) : opField (wordNnn op nnn) = op := by
  have := nnn.isLt
  simp only [opField, bits, wordNnn_toNat op nnn h]
  omega

@[simp] theorem nnnField_wordNnn (op : Nat) (nnn : Addr) (h : op < 16) : nnnField (wordNnn op nnn) = nnn := by
  have := nnn.isLt
  have hb : bits (wordNnn op nnn) 11 0 = nnn.toNat := by
    simp only [bits, wordNnn_toNat op nnn h]
    omega
  rw [nnnField, hb, BitVec.ofNat_toNat, BitVec.setWidth_eq]

/-! ### Bytes of a word -/

/-- A word's two bytes, read big-endian, are the word (20_memory R56). -/
@[simp] theorem wordOfBytes_bytes (w : Word) : wordOfBytes (highByte w) (lowByte w) = w := by
  have := w.isLt
  apply BitVec.eq_of_toNat_eq
  simp only [wordOfBytes, highByte, lowByte, bits, BitVec.toNat_ofNat]
  omega

@[simp] theorem highByte_wordOfBytes (hi lo : Byte) : highByte (wordOfBytes hi lo) = hi := by
  have := hi.isLt
  have := lo.isLt
  apply BitVec.eq_of_toNat_eq
  simp only [wordOfBytes, highByte, bits, BitVec.toNat_ofNat]
  omega

@[simp] theorem lowByte_wordOfBytes (hi lo : Byte) : lowByte (wordOfBytes hi lo) = lo := by
  have := hi.isLt
  have := lo.isLt
  apply BitVec.eq_of_toNat_eq
  simp only [wordOfBytes, lowByte, bits, BitVec.toNat_ofNat]
  omega

end Sys2Proof
end

