-- ==== Sys2Proof/Laws/State.lean ====
section
/-! SUPPORT. What each named update of the state leaves in each field: one lemma per field and update, true by
`rfl`, so that no proof unfolds a record update. -/

namespace Sys2Proof.Machine

/-! ### State.setV -/

@[simp] theorem State.setV_pc (s : State) (r : Reg) (b : Byte) :
    (s.setV r b).pc = s.pc := rfl

@[simp] theorem State.setV_sp (s : State) (r : Reg) (b : Byte) :
    (s.setV r b).sp = s.sp := rfl

@[simp] theorem State.setV_stack (s : State) (r : Reg) (b : Byte) :
    (s.setV r b).stack = s.stack := rfl

@[simp] theorem State.setV_i (s : State) (r : Reg) (b : Byte) :
    (s.setV r b).i = s.i := rfl

@[simp] theorem State.setV_dt (s : State) (r : Reg) (b : Byte) :
    (s.setV r b).dt = s.dt := rfl

@[simp] theorem State.setV_st (s : State) (r : Reg) (b : Byte) :
    (s.setV r b).st = s.st := rfl

@[simp] theorem State.setV_keys (s : State) (r : Reg) (b : Byte) :
    (s.setV r b).keys = s.keys := rfl

@[simp] theorem State.setV_wait (s : State) (r : Reg) (b : Byte) :
    (s.setV r b).wait = s.wait := rfl

@[simp] theorem State.setV_waitReg (s : State) (r : Reg) (b : Byte) :
    (s.setV r b).waitReg = s.waitReg := rfl

@[simp] theorem State.setV_fb (s : State) (r : Reg) (b : Byte) :
    (s.setV r b).fb = s.fb := rfl

@[simp] theorem State.setV_redraw (s : State) (r : Reg) (b : Byte) :
    (s.setV r b).redraw = s.redraw := rfl

@[simp] theorem State.setV_fault (s : State) (r : Reg) (b : Byte) :
    (s.setV r b).fault = s.fault := rfl

@[simp] theorem State.setV_mem (s : State) (r : Reg) (b : Byte) :
    (s.setV r b).mem = s.mem := rfl

@[simp] theorem State.setV_cfg (s : State) (r : Reg) (b : Byte) :
    (s.setV r b).cfg = s.cfg := rfl

@[simp] theorem State.setV_rnd (s : State) (r : Reg) (b : Byte) :
    (s.setV r b).rnd = s.rnd := rfl

@[simp] theorem State.setV_inputs (s : State) (r : Reg) (b : Byte) :
    (s.setV r b).inputs = s.inputs := rfl

@[simp] theorem State.setV_inputCount (s : State) (r : Reg) (b : Byte) :
    (s.setV r b).inputCount = s.inputCount := rfl

/-! ### State.setPc -/

@[simp] theorem State.setPc_pc (s : State) (a : Word) :
    (s.setPc a).pc = a := rfl

@[simp] theorem State.setPc_sp (s : State) (a : Word) :
    (s.setPc a).sp = s.sp := rfl

@[simp] theorem State.setPc_stack (s : State) (a : Word) :
    (s.setPc a).stack = s.stack := rfl

@[simp] theorem State.setPc_i (s : State) (a : Word) :
    (s.setPc a).i = s.i := rfl

@[simp] theorem State.setPc_dt (s : State) (a : Word) :
    (s.setPc a).dt = s.dt := rfl

@[simp] theorem State.setPc_st (s : State) (a : Word) :
    (s.setPc a).st = s.st := rfl

@[simp] theorem State.setPc_keys (s : State) (a : Word) :
    (s.setPc a).keys = s.keys := rfl

@[simp] theorem State.setPc_wait (s : State) (a : Word) :
    (s.setPc a).wait = s.wait := rfl

@[simp] theorem State.setPc_waitReg (s : State) (a : Word) :
    (s.setPc a).waitReg = s.waitReg := rfl

@[simp] theorem State.setPc_fb (s : State) (a : Word) :
    (s.setPc a).fb = s.fb := rfl

@[simp] theorem State.setPc_redraw (s : State) (a : Word) :
    (s.setPc a).redraw = s.redraw := rfl

@[simp] theorem State.setPc_fault (s : State) (a : Word) :
    (s.setPc a).fault = s.fault := rfl

@[simp] theorem State.setPc_mem (s : State) (a : Word) :
    (s.setPc a).mem = s.mem := rfl

@[simp] theorem State.setPc_cfg (s : State) (a : Word) :
    (s.setPc a).cfg = s.cfg := rfl

@[simp] theorem State.setPc_rnd (s : State) (a : Word) :
    (s.setPc a).rnd = s.rnd := rfl

@[simp] theorem State.setPc_inputs (s : State) (a : Word) :
    (s.setPc a).inputs = s.inputs := rfl

@[simp] theorem State.setPc_inputCount (s : State) (a : Word) :
    (s.setPc a).inputCount = s.inputCount := rfl

@[simp] theorem State.setPc_getV (s : State) (a : Word) (q : Reg) :
    (s.setPc a).getV q = s.getV q := rfl

/-! ### State.setI -/

@[simp] theorem State.setI_pc (s : State) (a : Word) :
    (s.setI a).pc = s.pc := rfl

@[simp] theorem State.setI_sp (s : State) (a : Word) :
    (s.setI a).sp = s.sp := rfl

@[simp] theorem State.setI_stack (s : State) (a : Word) :
    (s.setI a).stack = s.stack := rfl

@[simp] theorem State.setI_i (s : State) (a : Word) :
    (s.setI a).i = a := rfl

@[simp] theorem State.setI_dt (s : State) (a : Word) :
    (s.setI a).dt = s.dt := rfl

@[simp] theorem State.setI_st (s : State) (a : Word) :
    (s.setI a).st = s.st := rfl

@[simp] theorem State.setI_keys (s : State) (a : Word) :
    (s.setI a).keys = s.keys := rfl

@[simp] theorem State.setI_wait (s : State) (a : Word) :
    (s.setI a).wait = s.wait := rfl

@[simp] theorem State.setI_waitReg (s : State) (a : Word) :
    (s.setI a).waitReg = s.waitReg := rfl

@[simp] theorem State.setI_fb (s : State) (a : Word) :
    (s.setI a).fb = s.fb := rfl

@[simp] theorem State.setI_redraw (s : State) (a : Word) :
    (s.setI a).redraw = s.redraw := rfl

@[simp] theorem State.setI_fault (s : State) (a : Word) :
    (s.setI a).fault = s.fault := rfl

@[simp] theorem State.setI_mem (s : State) (a : Word) :
    (s.setI a).mem = s.mem := rfl

@[simp] theorem State.setI_cfg (s : State) (a : Word) :
    (s.setI a).cfg = s.cfg := rfl

@[simp] theorem State.setI_rnd (s : State) (a : Word) :
    (s.setI a).rnd = s.rnd := rfl

@[simp] theorem State.setI_inputs (s : State) (a : Word) :
    (s.setI a).inputs = s.inputs := rfl

@[simp] theorem State.setI_inputCount (s : State) (a : Word) :
    (s.setI a).inputCount = s.inputCount := rfl

@[simp] theorem State.setI_getV (s : State) (a : Word) (q : Reg) :
    (s.setI a).getV q = s.getV q := rfl

/-! ### State.setDt -/

@[simp] theorem State.setDt_pc (s : State) (b : Byte) :
    (s.setDt b).pc = s.pc := rfl

@[simp] theorem State.setDt_sp (s : State) (b : Byte) :
    (s.setDt b).sp = s.sp := rfl

@[simp] theorem State.setDt_stack (s : State) (b : Byte) :
    (s.setDt b).stack = s.stack := rfl

@[simp] theorem State.setDt_i (s : State) (b : Byte) :
    (s.setDt b).i = s.i := rfl

@[simp] theorem State.setDt_dt (s : State) (b : Byte) :
    (s.setDt b).dt = b := rfl

@[simp] theorem State.setDt_st (s : State) (b : Byte) :
    (s.setDt b).st = s.st := rfl

@[simp] theorem State.setDt_keys (s : State) (b : Byte) :
    (s.setDt b).keys = s.keys := rfl

@[simp] theorem State.setDt_wait (s : State) (b : Byte) :
    (s.setDt b).wait = s.wait := rfl

@[simp] theorem State.setDt_waitReg (s : State) (b : Byte) :
    (s.setDt b).waitReg = s.waitReg := rfl

@[simp] theorem State.setDt_fb (s : State) (b : Byte) :
    (s.setDt b).fb = s.fb := rfl

@[simp] theorem State.setDt_redraw (s : State) (b : Byte) :
    (s.setDt b).redraw = s.redraw := rfl

@[simp] theorem State.setDt_fault (s : State) (b : Byte) :
    (s.setDt b).fault = s.fault := rfl

@[simp] theorem State.setDt_mem (s : State) (b : Byte) :
    (s.setDt b).mem = s.mem := rfl

@[simp] theorem State.setDt_cfg (s : State) (b : Byte) :
    (s.setDt b).cfg = s.cfg := rfl

@[simp] theorem State.setDt_rnd (s : State) (b : Byte) :
    (s.setDt b).rnd = s.rnd := rfl

@[simp] theorem State.setDt_inputs (s : State) (b : Byte) :
    (s.setDt b).inputs = s.inputs := rfl

@[simp] theorem State.setDt_inputCount (s : State) (b : Byte) :
    (s.setDt b).inputCount = s.inputCount := rfl

@[simp] theorem State.setDt_getV (s : State) (b : Byte) (q : Reg) :
    (s.setDt b).getV q = s.getV q := rfl

/-! ### State.setSt -/

@[simp] theorem State.setSt_pc (s : State) (b : Byte) :
    (s.setSt b).pc = s.pc := rfl

@[simp] theorem State.setSt_sp (s : State) (b : Byte) :
    (s.setSt b).sp = s.sp := rfl

@[simp] theorem State.setSt_stack (s : State) (b : Byte) :
    (s.setSt b).stack = s.stack := rfl

@[simp] theorem State.setSt_i (s : State) (b : Byte) :
    (s.setSt b).i = s.i := rfl

@[simp] theorem State.setSt_dt (s : State) (b : Byte) :
    (s.setSt b).dt = s.dt := rfl

@[simp] theorem State.setSt_st (s : State) (b : Byte) :
    (s.setSt b).st = b := rfl

@[simp] theorem State.setSt_keys (s : State) (b : Byte) :
    (s.setSt b).keys = s.keys := rfl

@[simp] theorem State.setSt_wait (s : State) (b : Byte) :
    (s.setSt b).wait = s.wait := rfl

@[simp] theorem State.setSt_waitReg (s : State) (b : Byte) :
    (s.setSt b).waitReg = s.waitReg := rfl

@[simp] theorem State.setSt_fb (s : State) (b : Byte) :
    (s.setSt b).fb = s.fb := rfl

@[simp] theorem State.setSt_redraw (s : State) (b : Byte) :
    (s.setSt b).redraw = s.redraw := rfl

@[simp] theorem State.setSt_fault (s : State) (b : Byte) :
    (s.setSt b).fault = s.fault := rfl

@[simp] theorem State.setSt_mem (s : State) (b : Byte) :
    (s.setSt b).mem = s.mem := rfl

@[simp] theorem State.setSt_cfg (s : State) (b : Byte) :
    (s.setSt b).cfg = s.cfg := rfl

@[simp] theorem State.setSt_rnd (s : State) (b : Byte) :
    (s.setSt b).rnd = s.rnd := rfl

@[simp] theorem State.setSt_inputs (s : State) (b : Byte) :
    (s.setSt b).inputs = s.inputs := rfl

@[simp] theorem State.setSt_inputCount (s : State) (b : Byte) :
    (s.setSt b).inputCount = s.inputCount := rfl

@[simp] theorem State.setSt_getV (s : State) (b : Byte) (q : Reg) :
    (s.setSt b).getV q = s.getV q := rfl

/-! ### State.setRedraw -/

@[simp] theorem State.setRedraw_pc (s : State) (b : Bool) :
    (s.setRedraw b).pc = s.pc := rfl

@[simp] theorem State.setRedraw_sp (s : State) (b : Bool) :
    (s.setRedraw b).sp = s.sp := rfl

@[simp] theorem State.setRedraw_stack (s : State) (b : Bool) :
    (s.setRedraw b).stack = s.stack := rfl

@[simp] theorem State.setRedraw_i (s : State) (b : Bool) :
    (s.setRedraw b).i = s.i := rfl

@[simp] theorem State.setRedraw_dt (s : State) (b : Bool) :
    (s.setRedraw b).dt = s.dt := rfl

@[simp] theorem State.setRedraw_st (s : State) (b : Bool) :
    (s.setRedraw b).st = s.st := rfl

@[simp] theorem State.setRedraw_keys (s : State) (b : Bool) :
    (s.setRedraw b).keys = s.keys := rfl

@[simp] theorem State.setRedraw_wait (s : State) (b : Bool) :
    (s.setRedraw b).wait = s.wait := rfl

@[simp] theorem State.setRedraw_waitReg (s : State) (b : Bool) :
    (s.setRedraw b).waitReg = s.waitReg := rfl

@[simp] theorem State.setRedraw_fb (s : State) (b : Bool) :
    (s.setRedraw b).fb = s.fb := rfl

@[simp] theorem State.setRedraw_redraw (s : State) (b : Bool) :
    (s.setRedraw b).redraw = b := rfl

@[simp] theorem State.setRedraw_fault (s : State) (b : Bool) :
    (s.setRedraw b).fault = s.fault := rfl

@[simp] theorem State.setRedraw_mem (s : State) (b : Bool) :
    (s.setRedraw b).mem = s.mem := rfl

@[simp] theorem State.setRedraw_cfg (s : State) (b : Bool) :
    (s.setRedraw b).cfg = s.cfg := rfl

@[simp] theorem State.setRedraw_rnd (s : State) (b : Bool) :
    (s.setRedraw b).rnd = s.rnd := rfl

@[simp] theorem State.setRedraw_inputs (s : State) (b : Bool) :
    (s.setRedraw b).inputs = s.inputs := rfl

@[simp] theorem State.setRedraw_inputCount (s : State) (b : Bool) :
    (s.setRedraw b).inputCount = s.inputCount := rfl

@[simp] theorem State.setRedraw_getV (s : State) (b : Bool) (q : Reg) :
    (s.setRedraw b).getV q = s.getV q := rfl

/-! ### State.setFb -/

@[simp] theorem State.setFb_pc (s : State) (fb : List (Nat × Nat)) :
    (s.setFb fb).pc = s.pc := rfl

@[simp] theorem State.setFb_sp (s : State) (fb : List (Nat × Nat)) :
    (s.setFb fb).sp = s.sp := rfl

@[simp] theorem State.setFb_stack (s : State) (fb : List (Nat × Nat)) :
    (s.setFb fb).stack = s.stack := rfl

@[simp] theorem State.setFb_i (s : State) (fb : List (Nat × Nat)) :
    (s.setFb fb).i = s.i := rfl

@[simp] theorem State.setFb_dt (s : State) (fb : List (Nat × Nat)) :
    (s.setFb fb).dt = s.dt := rfl

@[simp] theorem State.setFb_st (s : State) (fb : List (Nat × Nat)) :
    (s.setFb fb).st = s.st := rfl

@[simp] theorem State.setFb_keys (s : State) (fb : List (Nat × Nat)) :
    (s.setFb fb).keys = s.keys := rfl

@[simp] theorem State.setFb_wait (s : State) (fb : List (Nat × Nat)) :
    (s.setFb fb).wait = s.wait := rfl

@[simp] theorem State.setFb_waitReg (s : State) (fb : List (Nat × Nat)) :
    (s.setFb fb).waitReg = s.waitReg := rfl

@[simp] theorem State.setFb_fb (s : State) (fb : List (Nat × Nat)) :
    (s.setFb fb).fb = fb := rfl

@[simp] theorem State.setFb_redraw (s : State) (fb : List (Nat × Nat)) :
    (s.setFb fb).redraw = s.redraw := rfl

@[simp] theorem State.setFb_fault (s : State) (fb : List (Nat × Nat)) :
    (s.setFb fb).fault = s.fault := rfl

@[simp] theorem State.setFb_mem (s : State) (fb : List (Nat × Nat)) :
    (s.setFb fb).mem = s.mem := rfl

@[simp] theorem State.setFb_cfg (s : State) (fb : List (Nat × Nat)) :
    (s.setFb fb).cfg = s.cfg := rfl

@[simp] theorem State.setFb_rnd (s : State) (fb : List (Nat × Nat)) :
    (s.setFb fb).rnd = s.rnd := rfl

@[simp] theorem State.setFb_inputs (s : State) (fb : List (Nat × Nat)) :
    (s.setFb fb).inputs = s.inputs := rfl

@[simp] theorem State.setFb_inputCount (s : State) (fb : List (Nat × Nat)) :
    (s.setFb fb).inputCount = s.inputCount := rfl

@[simp] theorem State.setFb_getV (s : State) (fb : List (Nat × Nat)) (q : Reg) :
    (s.setFb fb).getV q = s.getV q := rfl

/-! ### State.setMem -/

@[simp] theorem State.setMem_pc (s : State) (mem : List Host.Cell) :
    (s.setMem mem).pc = s.pc := rfl

@[simp] theorem State.setMem_sp (s : State) (mem : List Host.Cell) :
    (s.setMem mem).sp = s.sp := rfl

@[simp] theorem State.setMem_stack (s : State) (mem : List Host.Cell) :
    (s.setMem mem).stack = s.stack := rfl

@[simp] theorem State.setMem_i (s : State) (mem : List Host.Cell) :
    (s.setMem mem).i = s.i := rfl

@[simp] theorem State.setMem_dt (s : State) (mem : List Host.Cell) :
    (s.setMem mem).dt = s.dt := rfl

@[simp] theorem State.setMem_st (s : State) (mem : List Host.Cell) :
    (s.setMem mem).st = s.st := rfl

@[simp] theorem State.setMem_keys (s : State) (mem : List Host.Cell) :
    (s.setMem mem).keys = s.keys := rfl

@[simp] theorem State.setMem_wait (s : State) (mem : List Host.Cell) :
    (s.setMem mem).wait = s.wait := rfl

@[simp] theorem State.setMem_waitReg (s : State) (mem : List Host.Cell) :
    (s.setMem mem).waitReg = s.waitReg := rfl

@[simp] theorem State.setMem_fb (s : State) (mem : List Host.Cell) :
    (s.setMem mem).fb = s.fb := rfl

@[simp] theorem State.setMem_redraw (s : State) (mem : List Host.Cell) :
    (s.setMem mem).redraw = s.redraw := rfl

@[simp] theorem State.setMem_fault (s : State) (mem : List Host.Cell) :
    (s.setMem mem).fault = s.fault := rfl

@[simp] theorem State.setMem_mem (s : State) (mem : List Host.Cell) :
    (s.setMem mem).mem = mem := rfl

@[simp] theorem State.setMem_cfg (s : State) (mem : List Host.Cell) :
    (s.setMem mem).cfg = s.cfg := rfl

@[simp] theorem State.setMem_rnd (s : State) (mem : List Host.Cell) :
    (s.setMem mem).rnd = s.rnd := rfl

@[simp] theorem State.setMem_inputs (s : State) (mem : List Host.Cell) :
    (s.setMem mem).inputs = s.inputs := rfl

@[simp] theorem State.setMem_inputCount (s : State) (mem : List Host.Cell) :
    (s.setMem mem).inputCount = s.inputCount := rfl

@[simp] theorem State.setMem_getV (s : State) (mem : List Host.Cell) (q : Reg) :
    (s.setMem mem).getV q = s.getV q := rfl

/-! ### State.setKeys -/

@[simp] theorem State.setKeys_pc (s : State) (ks : BitVec 16) :
    (s.setKeys ks).pc = s.pc := rfl

@[simp] theorem State.setKeys_sp (s : State) (ks : BitVec 16) :
    (s.setKeys ks).sp = s.sp := rfl

@[simp] theorem State.setKeys_stack (s : State) (ks : BitVec 16) :
    (s.setKeys ks).stack = s.stack := rfl

@[simp] theorem State.setKeys_i (s : State) (ks : BitVec 16) :
    (s.setKeys ks).i = s.i := rfl

@[simp] theorem State.setKeys_dt (s : State) (ks : BitVec 16) :
    (s.setKeys ks).dt = s.dt := rfl

@[simp] theorem State.setKeys_st (s : State) (ks : BitVec 16) :
    (s.setKeys ks).st = s.st := rfl

@[simp] theorem State.setKeys_keys (s : State) (ks : BitVec 16) :
    (s.setKeys ks).keys = ks := rfl

@[simp] theorem State.setKeys_wait (s : State) (ks : BitVec 16) :
    (s.setKeys ks).wait = s.wait := rfl

@[simp] theorem State.setKeys_waitReg (s : State) (ks : BitVec 16) :
    (s.setKeys ks).waitReg = s.waitReg := rfl

@[simp] theorem State.setKeys_fb (s : State) (ks : BitVec 16) :
    (s.setKeys ks).fb = s.fb := rfl

@[simp] theorem State.setKeys_redraw (s : State) (ks : BitVec 16) :
    (s.setKeys ks).redraw = s.redraw := rfl

@[simp] theorem State.setKeys_fault (s : State) (ks : BitVec 16) :
    (s.setKeys ks).fault = s.fault := rfl

@[simp] theorem State.setKeys_mem (s : State) (ks : BitVec 16) :
    (s.setKeys ks).mem = s.mem := rfl

@[simp] theorem State.setKeys_cfg (s : State) (ks : BitVec 16) :
    (s.setKeys ks).cfg = s.cfg := rfl

@[simp] theorem State.setKeys_rnd (s : State) (ks : BitVec 16) :
    (s.setKeys ks).rnd = s.rnd := rfl

@[simp] theorem State.setKeys_inputs (s : State) (ks : BitVec 16) :
    (s.setKeys ks).inputs = s.inputs := rfl

@[simp] theorem State.setKeys_inputCount (s : State) (ks : BitVec 16) :
    (s.setKeys ks).inputCount = s.inputCount := rfl

@[simp] theorem State.setKeys_getV (s : State) (ks : BitVec 16) (q : Reg) :
    (s.setKeys ks).getV q = s.getV q := rfl

/-! ### State.setRnd -/

@[simp] theorem State.setRnd_pc (s : State) (b : Byte) :
    (s.setRnd b).pc = s.pc := rfl

@[simp] theorem State.setRnd_sp (s : State) (b : Byte) :
    (s.setRnd b).sp = s.sp := rfl

@[simp] theorem State.setRnd_stack (s : State) (b : Byte) :
    (s.setRnd b).stack = s.stack := rfl

@[simp] theorem State.setRnd_i (s : State) (b : Byte) :
    (s.setRnd b).i = s.i := rfl

@[simp] theorem State.setRnd_dt (s : State) (b : Byte) :
    (s.setRnd b).dt = s.dt := rfl

@[simp] theorem State.setRnd_st (s : State) (b : Byte) :
    (s.setRnd b).st = s.st := rfl

@[simp] theorem State.setRnd_keys (s : State) (b : Byte) :
    (s.setRnd b).keys = s.keys := rfl

@[simp] theorem State.setRnd_wait (s : State) (b : Byte) :
    (s.setRnd b).wait = s.wait := rfl

@[simp] theorem State.setRnd_waitReg (s : State) (b : Byte) :
    (s.setRnd b).waitReg = s.waitReg := rfl

@[simp] theorem State.setRnd_fb (s : State) (b : Byte) :
    (s.setRnd b).fb = s.fb := rfl

@[simp] theorem State.setRnd_redraw (s : State) (b : Byte) :
    (s.setRnd b).redraw = s.redraw := rfl

@[simp] theorem State.setRnd_fault (s : State) (b : Byte) :
    (s.setRnd b).fault = s.fault := rfl

@[simp] theorem State.setRnd_mem (s : State) (b : Byte) :
    (s.setRnd b).mem = s.mem := rfl

@[simp] theorem State.setRnd_cfg (s : State) (b : Byte) :
    (s.setRnd b).cfg = s.cfg := rfl

@[simp] theorem State.setRnd_rnd (s : State) (b : Byte) :
    (s.setRnd b).rnd = b := rfl

@[simp] theorem State.setRnd_inputs (s : State) (b : Byte) :
    (s.setRnd b).inputs = s.inputs := rfl

@[simp] theorem State.setRnd_inputCount (s : State) (b : Byte) :
    (s.setRnd b).inputCount = s.inputCount := rfl

@[simp] theorem State.setRnd_getV (s : State) (b : Byte) (q : Reg) :
    (s.setRnd b).getV q = s.getV q := rfl

/-! ### State.push -/

@[simp] theorem State.push_pc (s : State) (a : Word) :
    (s.push a).pc = s.pc := rfl

@[simp] theorem State.push_sp (s : State) (a : Word) :
    (s.push a).sp = s.sp + 1 := rfl

@[simp] theorem State.push_stack (s : State) (a : Word) :
    (s.push a).stack = s.stack.set (s.sp + 1).val (slotValue s.cfg a) := rfl

@[simp] theorem State.push_i (s : State) (a : Word) :
    (s.push a).i = s.i := rfl

@[simp] theorem State.push_dt (s : State) (a : Word) :
    (s.push a).dt = s.dt := rfl

@[simp] theorem State.push_st (s : State) (a : Word) :
    (s.push a).st = s.st := rfl

@[simp] theorem State.push_keys (s : State) (a : Word) :
    (s.push a).keys = s.keys := rfl

@[simp] theorem State.push_wait (s : State) (a : Word) :
    (s.push a).wait = s.wait := rfl

@[simp] theorem State.push_waitReg (s : State) (a : Word) :
    (s.push a).waitReg = s.waitReg := rfl

@[simp] theorem State.push_fb (s : State) (a : Word) :
    (s.push a).fb = s.fb := rfl

@[simp] theorem State.push_redraw (s : State) (a : Word) :
    (s.push a).redraw = s.redraw := rfl

@[simp] theorem State.push_fault (s : State) (a : Word) :
    (s.push a).fault = s.fault := rfl

@[simp] theorem State.push_mem (s : State) (a : Word) :
    (s.push a).mem = s.mem := rfl

@[simp] theorem State.push_cfg (s : State) (a : Word) :
    (s.push a).cfg = s.cfg := rfl

@[simp] theorem State.push_rnd (s : State) (a : Word) :
    (s.push a).rnd = s.rnd := rfl

@[simp] theorem State.push_inputs (s : State) (a : Word) :
    (s.push a).inputs = s.inputs := rfl

@[simp] theorem State.push_inputCount (s : State) (a : Word) :
    (s.push a).inputCount = s.inputCount := rfl

@[simp] theorem State.push_getV (s : State) (a : Word) (q : Reg) :
    (s.push a).getV q = s.getV q := rfl

/-! ### State.drop -/

@[simp] theorem State.drop_pc (s : State) :
    s.drop.pc = s.pc := rfl

@[simp] theorem State.drop_sp (s : State) :
    s.drop.sp = s.sp - 1 := rfl

@[simp] theorem State.drop_stack (s : State) :
    s.drop.stack = s.stack := rfl

@[simp] theorem State.drop_i (s : State) :
    s.drop.i = s.i := rfl

@[simp] theorem State.drop_dt (s : State) :
    s.drop.dt = s.dt := rfl

@[simp] theorem State.drop_st (s : State) :
    s.drop.st = s.st := rfl

@[simp] theorem State.drop_keys (s : State) :
    s.drop.keys = s.keys := rfl

@[simp] theorem State.drop_wait (s : State) :
    s.drop.wait = s.wait := rfl

@[simp] theorem State.drop_waitReg (s : State) :
    s.drop.waitReg = s.waitReg := rfl

@[simp] theorem State.drop_fb (s : State) :
    s.drop.fb = s.fb := rfl

@[simp] theorem State.drop_redraw (s : State) :
    s.drop.redraw = s.redraw := rfl

@[simp] theorem State.drop_fault (s : State) :
    s.drop.fault = s.fault := rfl

@[simp] theorem State.drop_mem (s : State) :
    s.drop.mem = s.mem := rfl

@[simp] theorem State.drop_cfg (s : State) :
    s.drop.cfg = s.cfg := rfl

@[simp] theorem State.drop_rnd (s : State) :
    s.drop.rnd = s.rnd := rfl

@[simp] theorem State.drop_inputs (s : State) :
    s.drop.inputs = s.inputs := rfl

@[simp] theorem State.drop_inputCount (s : State) :
    s.drop.inputCount = s.inputCount := rfl

@[simp] theorem State.drop_getV (s : State) (q : Reg) :
    s.drop.getV q = s.getV q := rfl

/-! ### State.beginWait -/

@[simp] theorem State.beginWait_pc (s : State) (x : Reg) :
    (s.beginWait x).pc = s.pc := rfl

@[simp] theorem State.beginWait_sp (s : State) (x : Reg) :
    (s.beginWait x).sp = s.sp := rfl

@[simp] theorem State.beginWait_stack (s : State) (x : Reg) :
    (s.beginWait x).stack = s.stack := rfl

@[simp] theorem State.beginWait_i (s : State) (x : Reg) :
    (s.beginWait x).i = s.i := rfl

@[simp] theorem State.beginWait_dt (s : State) (x : Reg) :
    (s.beginWait x).dt = s.dt := rfl

@[simp] theorem State.beginWait_st (s : State) (x : Reg) :
    (s.beginWait x).st = s.st := rfl

@[simp] theorem State.beginWait_keys (s : State) (x : Reg) :
    (s.beginWait x).keys = s.keys := rfl

@[simp] theorem State.beginWait_wait (s : State) (x : Reg) :
    (s.beginWait x).wait = true := rfl

@[simp] theorem State.beginWait_waitReg (s : State) (x : Reg) :
    (s.beginWait x).waitReg = x := rfl

@[simp] theorem State.beginWait_fb (s : State) (x : Reg) :
    (s.beginWait x).fb = s.fb := rfl

@[simp] theorem State.beginWait_redraw (s : State) (x : Reg) :
    (s.beginWait x).redraw = s.redraw := rfl

@[simp] theorem State.beginWait_fault (s : State) (x : Reg) :
    (s.beginWait x).fault = s.fault := rfl

@[simp] theorem State.beginWait_mem (s : State) (x : Reg) :
    (s.beginWait x).mem = s.mem := rfl

@[simp] theorem State.beginWait_cfg (s : State) (x : Reg) :
    (s.beginWait x).cfg = s.cfg := rfl

@[simp] theorem State.beginWait_rnd (s : State) (x : Reg) :
    (s.beginWait x).rnd = s.rnd := rfl

@[simp] theorem State.beginWait_inputs (s : State) (x : Reg) :
    (s.beginWait x).inputs = s.inputs := rfl

@[simp] theorem State.beginWait_inputCount (s : State) (x : Reg) :
    (s.beginWait x).inputCount = s.inputCount := rfl

@[simp] theorem State.beginWait_getV (s : State) (x : Reg) (q : Reg) :
    (s.beginWait x).getV q = s.getV q := rfl

/-! ### State.endWait -/

@[simp] theorem State.endWait_pc (s : State) (k : Reg) :
    (s.endWait k).pc = s.pc := rfl

@[simp] theorem State.endWait_sp (s : State) (k : Reg) :
    (s.endWait k).sp = s.sp := rfl

@[simp] theorem State.endWait_stack (s : State) (k : Reg) :
    (s.endWait k).stack = s.stack := rfl

@[simp] theorem State.endWait_i (s : State) (k : Reg) :
    (s.endWait k).i = s.i := rfl

@[simp] theorem State.endWait_dt (s : State) (k : Reg) :
    (s.endWait k).dt = s.dt := rfl

@[simp] theorem State.endWait_st (s : State) (k : Reg) :
    (s.endWait k).st = s.st := rfl

@[simp] theorem State.endWait_keys (s : State) (k : Reg) :
    (s.endWait k).keys = s.keys := rfl

@[simp] theorem State.endWait_wait (s : State) (k : Reg) :
    (s.endWait k).wait = false := rfl

@[simp] theorem State.endWait_waitReg (s : State) (k : Reg) :
    (s.endWait k).waitReg = s.waitReg := rfl

@[simp] theorem State.endWait_fb (s : State) (k : Reg) :
    (s.endWait k).fb = s.fb := rfl

@[simp] theorem State.endWait_redraw (s : State) (k : Reg) :
    (s.endWait k).redraw = s.redraw := rfl

@[simp] theorem State.endWait_fault (s : State) (k : Reg) :
    (s.endWait k).fault = s.fault := rfl

@[simp] theorem State.endWait_mem (s : State) (k : Reg) :
    (s.endWait k).mem = s.mem := rfl

@[simp] theorem State.endWait_cfg (s : State) (k : Reg) :
    (s.endWait k).cfg = s.cfg := rfl

@[simp] theorem State.endWait_rnd (s : State) (k : Reg) :
    (s.endWait k).rnd = s.rnd := rfl

@[simp] theorem State.endWait_inputs (s : State) (k : Reg) :
    (s.endWait k).inputs = s.inputs := rfl

@[simp] theorem State.endWait_inputCount (s : State) (k : Reg) :
    (s.endWait k).inputCount = s.inputCount := rfl

/-! ### State.beginStep -/

@[simp] theorem State.beginStep_pc (s : State) :
    s.beginStep.pc = s.pc := rfl

@[simp] theorem State.beginStep_sp (s : State) :
    s.beginStep.sp = s.sp := rfl

@[simp] theorem State.beginStep_stack (s : State) :
    s.beginStep.stack = s.stack := rfl

@[simp] theorem State.beginStep_i (s : State) :
    s.beginStep.i = s.i := rfl

@[simp] theorem State.beginStep_dt (s : State) :
    s.beginStep.dt = s.dt := rfl

@[simp] theorem State.beginStep_st (s : State) :
    s.beginStep.st = s.st := rfl

@[simp] theorem State.beginStep_keys (s : State) :
    s.beginStep.keys = s.nextInput.keys := rfl

@[simp] theorem State.beginStep_wait (s : State) :
    s.beginStep.wait = s.wait := rfl

@[simp] theorem State.beginStep_waitReg (s : State) :
    s.beginStep.waitReg = s.waitReg := rfl

@[simp] theorem State.beginStep_fb (s : State) :
    s.beginStep.fb = s.fb := rfl

@[simp] theorem State.beginStep_redraw (s : State) :
    s.beginStep.redraw = false := rfl

@[simp] theorem State.beginStep_fault (s : State) :
    s.beginStep.fault = s.fault := rfl

@[simp] theorem State.beginStep_mem (s : State) :
    s.beginStep.mem = s.mem := rfl

@[simp] theorem State.beginStep_cfg (s : State) :
    s.beginStep.cfg = s.cfg := rfl

@[simp] theorem State.beginStep_rnd (s : State) :
    s.beginStep.rnd = s.nextInput.rnd := rfl

@[simp] theorem State.beginStep_inputs (s : State) :
    s.beginStep.inputs = s.inputs.tail := rfl

@[simp] theorem State.beginStep_inputCount (s : State) :
    s.beginStep.inputCount = s.inputCount + 1 := rfl

@[simp] theorem State.beginStep_getV (s : State) (q : Reg) :
    s.beginStep.getV q = s.getV q := rfl

/-! ### takeFault -/

@[simp] theorem takeFault_pc (s : State) (f : Fault) :
    (takeFault s f).pc = s.pc := rfl

@[simp] theorem takeFault_sp (s : State) (f : Fault) :
    (takeFault s f).sp = s.sp := rfl

@[simp] theorem takeFault_stack (s : State) (f : Fault) :
    (takeFault s f).stack = s.stack := rfl

@[simp] theorem takeFault_i (s : State) (f : Fault) :
    (takeFault s f).i = s.i := rfl

@[simp] theorem takeFault_dt (s : State) (f : Fault) :
    (takeFault s f).dt = s.dt := rfl

@[simp] theorem takeFault_st (s : State) (f : Fault) :
    (takeFault s f).st = s.st := rfl

@[simp] theorem takeFault_keys (s : State) (f : Fault) :
    (takeFault s f).keys = s.keys := rfl

@[simp] theorem takeFault_wait (s : State) (f : Fault) :
    (takeFault s f).wait = s.wait := rfl

@[simp] theorem takeFault_waitReg (s : State) (f : Fault) :
    (takeFault s f).waitReg = s.waitReg := rfl

@[simp] theorem takeFault_fb (s : State) (f : Fault) :
    (takeFault s f).fb = s.fb := rfl

@[simp] theorem takeFault_redraw (s : State) (f : Fault) :
    (takeFault s f).redraw = s.redraw := rfl

@[simp] theorem takeFault_fault (s : State) (f : Fault) :
    (takeFault s f).fault = some f := rfl

@[simp] theorem takeFault_mem (s : State) (f : Fault) :
    (takeFault s f).mem = s.mem := rfl

@[simp] theorem takeFault_cfg (s : State) (f : Fault) :
    (takeFault s f).cfg = s.cfg := rfl

@[simp] theorem takeFault_rnd (s : State) (f : Fault) :
    (takeFault s f).rnd = s.rnd := rfl

@[simp] theorem takeFault_inputs (s : State) (f : Fault) :
    (takeFault s f).inputs = s.inputs := rfl

@[simp] theorem takeFault_inputCount (s : State) (f : Fault) :
    (takeFault s f).inputCount = s.inputCount := rfl

@[simp] theorem takeFault_getV (s : State) (f : Fault) (q : Reg) :
    (takeFault s f).getV q = s.getV q := rfl

/-! ### timerTick -/

@[simp] theorem timerTick_pc (s : State) :
    (timerTick s).pc = s.pc := rfl

@[simp] theorem timerTick_sp (s : State) :
    (timerTick s).sp = s.sp := rfl

@[simp] theorem timerTick_stack (s : State) :
    (timerTick s).stack = s.stack := rfl

@[simp] theorem timerTick_i (s : State) :
    (timerTick s).i = s.i := rfl

@[simp] theorem timerTick_dt (s : State) :
    (timerTick s).dt = tickDown s.dt := rfl

@[simp] theorem timerTick_st (s : State) :
    (timerTick s).st = tickDown s.st := rfl

@[simp] theorem timerTick_keys (s : State) :
    (timerTick s).keys = s.keys := rfl

@[simp] theorem timerTick_wait (s : State) :
    (timerTick s).wait = s.wait := rfl

@[simp] theorem timerTick_waitReg (s : State) :
    (timerTick s).waitReg = s.waitReg := rfl

@[simp] theorem timerTick_fb (s : State) :
    (timerTick s).fb = s.fb := rfl

@[simp] theorem timerTick_redraw (s : State) :
    (timerTick s).redraw = s.redraw := rfl

@[simp] theorem timerTick_fault (s : State) :
    (timerTick s).fault = s.fault := rfl

@[simp] theorem timerTick_mem (s : State) :
    (timerTick s).mem = s.mem := rfl

@[simp] theorem timerTick_cfg (s : State) :
    (timerTick s).cfg = s.cfg := rfl

@[simp] theorem timerTick_rnd (s : State) :
    (timerTick s).rnd = s.rnd := rfl

@[simp] theorem timerTick_inputs (s : State) :
    (timerTick s).inputs = s.inputs := rfl

@[simp] theorem timerTick_inputCount (s : State) :
    (timerTick s).inputCount = s.inputCount := rfl

@[simp] theorem timerTick_getV (s : State) (q : Reg) :
    (timerTick s).getV q = s.getV q := rfl

/-! ### Registers -/

/-- A register read after a register write (10_state R20: each index names one byte). -/
@[simp] theorem State.setV_getV (s : State) (r : Reg) (b : Byte) (q : Reg) :
    (s.setV r b).getV q = if q = r then b else s.getV q := by
  simp only [State.getV, State.setV, Vector.getElem_set, Fin.ext_iff, eq_comm]

/-- The key index a wait writes (43_timers_keypad R208). -/
@[simp] theorem State.endWait_getV (s : State) (k q : Reg) :
    (s.endWait k).getV q = if q = s.waitReg then BitVec.ofNat 8 k.val else s.getV q :=
  State.setV_getV s s.waitReg _ q

/-! ### applyEffect -/

@[simp] theorem applyEffect_sp (e : PcEffect) (s : State) : (applyEffect e s).sp = s.sp := by
  cases e <;> rfl

@[simp] theorem applyEffect_stack (e : PcEffect) (s : State) : (applyEffect e s).stack = s.stack := by
  cases e <;> rfl

@[simp] theorem applyEffect_i (e : PcEffect) (s : State) : (applyEffect e s).i = s.i := by
  cases e <;> rfl

@[simp] theorem applyEffect_dt (e : PcEffect) (s : State) : (applyEffect e s).dt = s.dt := by
  cases e <;> rfl

@[simp] theorem applyEffect_st (e : PcEffect) (s : State) : (applyEffect e s).st = s.st := by
  cases e <;> rfl

@[simp] theorem applyEffect_keys (e : PcEffect) (s : State) : (applyEffect e s).keys = s.keys := by
  cases e <;> rfl

@[simp] theorem applyEffect_wait (e : PcEffect) (s : State) : (applyEffect e s).wait = s.wait := by
  cases e <;> rfl

@[simp] theorem applyEffect_waitReg (e : PcEffect) (s : State) : (applyEffect e s).waitReg = s.waitReg := by
  cases e <;> rfl

@[simp] theorem applyEffect_fb (e : PcEffect) (s : State) : (applyEffect e s).fb = s.fb := by
  cases e <;> rfl

@[simp] theorem applyEffect_redraw (e : PcEffect) (s : State) : (applyEffect e s).redraw = s.redraw := by
  cases e <;> rfl

@[simp] theorem applyEffect_fault (e : PcEffect) (s : State) : (applyEffect e s).fault = s.fault := by
  cases e <;> rfl

@[simp] theorem applyEffect_mem (e : PcEffect) (s : State) : (applyEffect e s).mem = s.mem := by
  cases e <;> rfl

@[simp] theorem applyEffect_cfg (e : PcEffect) (s : State) : (applyEffect e s).cfg = s.cfg := by
  cases e <;> rfl

@[simp] theorem applyEffect_rnd (e : PcEffect) (s : State) : (applyEffect e s).rnd = s.rnd := by
  cases e <;> rfl

@[simp] theorem applyEffect_inputs (e : PcEffect) (s : State) : (applyEffect e s).inputs = s.inputs := by
  cases e <;> rfl

@[simp] theorem applyEffect_inputCount (e : PcEffect) (s : State) : (applyEffect e s).inputCount = s.inputCount := by
  cases e <;> rfl

@[simp] theorem applyEffect_getV (e : PcEffect) (s : State) (q : Reg) :
    (applyEffect e s).getV q = s.getV q := by
  cases e <;> rfl

@[simp] theorem applyEffect_advance_pc (s : State) : (applyEffect .advance s).pc = s.pc + 2 := rfl

@[simp] theorem applyEffect_skip_pc (s : State) : (applyEffect .skip s).pc = s.pc + 4 := rfl

@[simp] theorem applyEffect_jump_pc (s : State) (a : Nat) :
    (applyEffect (.jump a) s).pc = BitVec.ofNat 16 a := rfl

/-- SKIP moves pc by four bytes and ADVANCE by two (30_encoding R91). -/
@[simp] theorem applyEffect_skipIf_pc (s : State) (p : Bool) :
    (applyEffect (skipIf p) s).pc = if p then s.pc + 4 else s.pc + 2 := by
  cases p <;> rfl

/-! ### writeFlagged -/

@[simp] theorem writeFlagged_pc (x : Reg) (flag : Bool) (result : State → Byte) (s : State) :
    (writeFlagged x flag result s).pc = s.pc := by
  unfold writeFlagged; split <;> rfl

@[simp] theorem writeFlagged_sp (x : Reg) (flag : Bool) (result : State → Byte) (s : State) :
    (writeFlagged x flag result s).sp = s.sp := by
  unfold writeFlagged; split <;> rfl

@[simp] theorem writeFlagged_stack (x : Reg) (flag : Bool) (result : State → Byte) (s : State) :
    (writeFlagged x flag result s).stack = s.stack := by
  unfold writeFlagged; split <;> rfl

@[simp] theorem writeFlagged_i (x : Reg) (flag : Bool) (result : State → Byte) (s : State) :
    (writeFlagged x flag result s).i = s.i := by
  unfold writeFlagged; split <;> rfl

@[simp] theorem writeFlagged_dt (x : Reg) (flag : Bool) (result : State → Byte) (s : State) :
    (writeFlagged x flag result s).dt = s.dt := by
  unfold writeFlagged; split <;> rfl

@[simp] theorem writeFlagged_st (x : Reg) (flag : Bool) (result : State → Byte) (s : State) :
    (writeFlagged x flag result s).st = s.st := by
  unfold writeFlagged; split <;> rfl

@[simp] theorem writeFlagged_keys (x : Reg) (flag : Bool) (result : State → Byte) (s : State) :
    (writeFlagged x flag result s).keys = s.keys := by
  unfold writeFlagged; split <;> rfl

@[simp] theorem writeFlagged_wait (x : Reg) (flag : Bool) (result : State → Byte) (s : State) :
    (writeFlagged x flag result s).wait = s.wait := by
  unfold writeFlagged; split <;> rfl

@[simp] theorem writeFlagged_waitReg (x : Reg) (flag : Bool) (result : State → Byte) (s : State) :
    (writeFlagged x flag result s).waitReg = s.waitReg := by
  unfold writeFlagged; split <;> rfl

@[simp] theorem writeFlagged_fb (x : Reg) (flag : Bool) (result : State → Byte) (s : State) :
    (writeFlagged x flag result s).fb = s.fb := by
  unfold writeFlagged; split <;> rfl

@[simp] theorem writeFlagged_redraw (x : Reg) (flag : Bool) (result : State → Byte) (s : State) :
    (writeFlagged x flag result s).redraw = s.redraw := by
  unfold writeFlagged; split <;> rfl

@[simp] theorem writeFlagged_fault (x : Reg) (flag : Bool) (result : State → Byte) (s : State) :
    (writeFlagged x flag result s).fault = s.fault := by
  unfold writeFlagged; split <;> rfl

@[simp] theorem writeFlagged_mem (x : Reg) (flag : Bool) (result : State → Byte) (s : State) :
    (writeFlagged x flag result s).mem = s.mem := by
  unfold writeFlagged; split <;> rfl

@[simp] theorem writeFlagged_cfg (x : Reg) (flag : Bool) (result : State → Byte) (s : State) :
    (writeFlagged x flag result s).cfg = s.cfg := by
  unfold writeFlagged; split <;> rfl

@[simp] theorem writeFlagged_rnd (x : Reg) (flag : Bool) (result : State → Byte) (s : State) :
    (writeFlagged x flag result s).rnd = s.rnd := by
  unfold writeFlagged; split <;> rfl

@[simp] theorem writeFlagged_inputs (x : Reg) (flag : Bool) (result : State → Byte) (s : State) :
    (writeFlagged x flag result s).inputs = s.inputs := by
  unfold writeFlagged; split <;> rfl

@[simp] theorem writeFlagged_inputCount (x : Reg) (flag : Bool) (result : State → Byte) (s : State) :
    (writeFlagged x flag result s).inputCount = s.inputCount := by
  unfold writeFlagged; split <;> rfl

/-- Every register after the two writes of a flag-writing instruction (41_register_alu R131). -/
theorem writeFlagged_getV (x : Reg) (flag : Bool) (result : State → Byte) (s : State) (q : Reg) :
    (writeFlagged x flag result s).getV q =
      match s.cfg.vfAlias with
      | .sequential =>
        if q = x then result (s.setV flagReg (flagByte flag))
        else if q = flagReg then flagByte flag else s.getV q
      | .operandsFirst =>
        if q = flagReg then flagByte flag else if q = x then result s else s.getV q := by
  unfold writeFlagged
  split <;> simp [*]

/-! ### putRegs -/

@[simp] theorem State.putRegs_pc (k : Nat) (bs : List Byte) (s : State) :
    (State.putRegs k bs s).pc = s.pc := by
  induction bs generalizing k s with
  | nil => rfl
  | cons b bs ih => simp [State.putRegs, ih]

@[simp] theorem State.putRegs_sp (k : Nat) (bs : List Byte) (s : State) :
    (State.putRegs k bs s).sp = s.sp := by
  induction bs generalizing k s with
  | nil => rfl
  | cons b bs ih => simp [State.putRegs, ih]

@[simp] theorem State.putRegs_stack (k : Nat) (bs : List Byte) (s : State) :
    (State.putRegs k bs s).stack = s.stack := by
  induction bs generalizing k s with
  | nil => rfl
  | cons b bs ih => simp [State.putRegs, ih]

@[simp] theorem State.putRegs_i (k : Nat) (bs : List Byte) (s : State) :
    (State.putRegs k bs s).i = s.i := by
  induction bs generalizing k s with
  | nil => rfl
  | cons b bs ih => simp [State.putRegs, ih]

@[simp] theorem State.putRegs_dt (k : Nat) (bs : List Byte) (s : State) :
    (State.putRegs k bs s).dt = s.dt := by
  induction bs generalizing k s with
  | nil => rfl
  | cons b bs ih => simp [State.putRegs, ih]

@[simp] theorem State.putRegs_st (k : Nat) (bs : List Byte) (s : State) :
    (State.putRegs k bs s).st = s.st := by
  induction bs generalizing k s with
  | nil => rfl
  | cons b bs ih => simp [State.putRegs, ih]

@[simp] theorem State.putRegs_keys (k : Nat) (bs : List Byte) (s : State) :
    (State.putRegs k bs s).keys = s.keys := by
  induction bs generalizing k s with
  | nil => rfl
  | cons b bs ih => simp [State.putRegs, ih]

@[simp] theorem State.putRegs_wait (k : Nat) (bs : List Byte) (s : State) :
    (State.putRegs k bs s).wait = s.wait := by
  induction bs generalizing k s with
  | nil => rfl
  | cons b bs ih => simp [State.putRegs, ih]

@[simp] theorem State.putRegs_waitReg (k : Nat) (bs : List Byte) (s : State) :
    (State.putRegs k bs s).waitReg = s.waitReg := by
  induction bs generalizing k s with
  | nil => rfl
  | cons b bs ih => simp [State.putRegs, ih]

@[simp] theorem State.putRegs_fb (k : Nat) (bs : List Byte) (s : State) :
    (State.putRegs k bs s).fb = s.fb := by
  induction bs generalizing k s with
  | nil => rfl
  | cons b bs ih => simp [State.putRegs, ih]

@[simp] theorem State.putRegs_redraw (k : Nat) (bs : List Byte) (s : State) :
    (State.putRegs k bs s).redraw = s.redraw := by
  induction bs generalizing k s with
  | nil => rfl
  | cons b bs ih => simp [State.putRegs, ih]

@[simp] theorem State.putRegs_fault (k : Nat) (bs : List Byte) (s : State) :
    (State.putRegs k bs s).fault = s.fault := by
  induction bs generalizing k s with
  | nil => rfl
  | cons b bs ih => simp [State.putRegs, ih]

@[simp] theorem State.putRegs_mem (k : Nat) (bs : List Byte) (s : State) :
    (State.putRegs k bs s).mem = s.mem := by
  induction bs generalizing k s with
  | nil => rfl
  | cons b bs ih => simp [State.putRegs, ih]

@[simp] theorem State.putRegs_cfg (k : Nat) (bs : List Byte) (s : State) :
    (State.putRegs k bs s).cfg = s.cfg := by
  induction bs generalizing k s with
  | nil => rfl
  | cons b bs ih => simp [State.putRegs, ih]

@[simp] theorem State.putRegs_rnd (k : Nat) (bs : List Byte) (s : State) :
    (State.putRegs k bs s).rnd = s.rnd := by
  induction bs generalizing k s with
  | nil => rfl
  | cons b bs ih => simp [State.putRegs, ih]

@[simp] theorem State.putRegs_inputs (k : Nat) (bs : List Byte) (s : State) :
    (State.putRegs k bs s).inputs = s.inputs := by
  induction bs generalizing k s with
  | nil => rfl
  | cons b bs ih => simp [State.putRegs, ih]

@[simp] theorem State.putRegs_inputCount (k : Nat) (bs : List Byte) (s : State) :
    (State.putRegs k bs s).inputCount = s.inputCount := by
  induction bs generalizing k s with
  | nil => rfl
  | cons b bs ih => simp [State.putRegs, ih]

end Sys2Proof.Machine
end

