-- ==== Sys2Proof/Laws/Memory.lean ====
section
/-! SUPPORT. Memory: a read after a write, the canonical form every operation keeps, and what the multi-byte
accesses can do. -/

namespace Sys2Proof.Machine

/-! ### One byte -/

/-- A memory that lists nothing reads as unlisted everywhere (10_state R37). -/
@[simp] theorem Memory.read_nil (a : Nat) : Memory.read [] a = unlistedByte a := rfl

theorem Memory.read_filter_ne (mem : List Host.Cell) (a q : Nat) (h : q ≠ a) :
    Memory.read (mem.filter (fun c => c.1 != a)) q = Memory.read mem q := by
  induction mem with
  | nil => rfl
  | cons c rest ih =>
    by_cases hc : c.1 = a
    · have hq : c.1 ≠ q := fun e => h (e.symm.trans hc)
      rw [List.filter_cons_of_neg (by simp [hc]), ih, Memory.read, if_neg hq]
    · rw [List.filter_cons_of_pos (by simp [hc])]
      simp only [Memory.read, ih]

theorem Memory.read_filter_self (mem : List Host.Cell) (a : Nat) :
    Memory.read (mem.filter (fun c => c.1 != a)) a = unlistedByte a := by
  induction mem with
  | nil => rfl
  | cons c rest ih =>
    by_cases hc : c.1 = a
    · rw [List.filter_cons_of_neg (by simp [hc]), ih]
    · rw [List.filter_cons_of_pos (by simp [hc]), Memory.read, if_neg hc, ih]

theorem Memory.read_insert_ne (c : Host.Cell) (mem : List Host.Cell) (q : Nat) (h : c.1 ≠ q) :
    Memory.read (Memory.insert c mem) q = Memory.read mem q := by
  induction mem with
  | nil => simp [Memory.insert, Memory.read, h]
  | cons d rest ih =>
    unfold Memory.insert
    split
    · simp [Memory.read, h]
    · simp [Memory.read, ih]

theorem Memory.read_insert_self (c : Host.Cell) (mem : List Host.Cell) (h : ∀ d ∈ mem, d.1 ≠ c.1) :
    Memory.read (Memory.insert c mem) c.1 = c.2 := by
  induction mem with
  | nil => simp [Memory.insert, Memory.read]
  | cons d rest ih =>
    unfold Memory.insert
    split
    · simp [Memory.read]
    · rw [Memory.read, if_neg (h d (by simp)), ih (fun e he => h e (by simp [he]))]

/-- A read after a write gives the byte written at its address and leaves every other address as it was
(20_memory R61). It holds of every list of entries. -/
theorem Memory.read_write (mem : List Host.Cell) (a : Nat) (b : Byte) (q : Nat) :
    Memory.read (Memory.write mem a b) q = if q = a then b else Memory.read mem q := by
  unfold Memory.write
  by_cases h : q = a
  · subst h
    rw [if_pos rfl]
    dsimp only
    split
    · rename_i hb
      rw [Memory.read_filter_self, hb]
    · exact Memory.read_insert_self (q, b) _ (by simp)
  · rw [if_neg h]
    dsimp only
    split
    · exact Memory.read_filter_ne mem a q h
    · rw [Memory.read_insert_ne _ _ _ (by simpa using Ne.symm h), Memory.read_filter_ne mem a q h]

/-- The bytes of a run of writes (20_memory R61). -/
theorem Memory.read_writeSeq (bs : List Byte) (mem : List Host.Cell) (a q : Nat) :
    Memory.read (Memory.writeSeq mem a bs) q =
      if h : a ≤ q ∧ q < a + bs.length then bs[q - a]'(by omega) else Memory.read mem q := by
  induction bs generalizing mem a with
  | nil =>
    rw [dif_neg (by simp)]
    rfl
  | cons b bs ih =>
    rw [Memory.writeSeq, ih]
    by_cases h1 : a + 1 ≤ q ∧ q < a + 1 + bs.length
    · have h2 : a ≤ q ∧ q < a + (b :: bs).length := by simp; omega
      have h3 : q - a = (q - (a + 1)) + 1 := by omega
      rw [dif_pos h1, dif_pos h2]
      simp [h3]
    · rw [dif_neg h1, Memory.read_write]
      by_cases h2 : q = a
      · subst h2
        simp
      · have h3 : ¬ (a ≤ q ∧ q < a + (b :: bs).length) := by simp; omega
        rw [dif_neg h3, if_neg h2]

/-! ### The canonical form -/

theorem Memory.risingFrom_some_iff (lo : Nat) (mem : List Host.Cell) :
    Memory.risingFrom (some lo) mem = true ↔
      (∀ c ∈ mem, lo < c.1) ∧ Memory.risingFrom none mem = true := by
  induction mem generalizing lo with
  | nil => simp [Memory.risingFrom]
  | cons c rest ih =>
    simp only [Memory.risingFrom, Bool.and_eq_true, decide_eq_true_eq, List.mem_cons, forall_eq_or_imp]
    constructor
    · rintro ⟨h1, h2⟩
      exact ⟨⟨h1, fun d hd => Nat.lt_trans h1 (((ih c.1).mp h2).1 d hd)⟩, h2⟩
    · rintro ⟨⟨h1, _⟩, h2⟩
      exact ⟨h1, h2⟩

theorem Memory.risingFrom_filter (p : Host.Cell → Bool) (mem : List Host.Cell)
    (h : Memory.risingFrom none mem = true) : Memory.risingFrom none (mem.filter p) = true := by
  induction mem with
  | nil => exact h
  | cons c rest ih =>
    obtain ⟨h1, h2⟩ := (Memory.risingFrom_some_iff c.1 rest).mp h
    by_cases hp : p c
    · rw [List.filter_cons_of_pos hp]
      exact (Memory.risingFrom_some_iff c.1 _).mpr ⟨fun d hd => h1 d (List.mem_of_mem_filter hd), ih h2⟩
    · rw [List.filter_cons_of_neg hp]
      exact ih h2

theorem Memory.mem_insert (c d : Host.Cell) (mem : List Host.Cell) :
    d ∈ Memory.insert c mem ↔ d = c ∨ d ∈ mem := by
  induction mem with
  | nil => simp [Memory.insert]
  | cons e rest ih =>
    unfold Memory.insert
    split
    · simp
    · simp only [List.mem_cons, ih]
      tauto

theorem Memory.risingFrom_insert (c : Host.Cell) (mem : List Host.Cell)
    (h : Memory.risingFrom none mem = true) (hc : ∀ d ∈ mem, d.1 ≠ c.1) :
    Memory.risingFrom none (Memory.insert c mem) = true := by
  induction mem with
  | nil => rfl
  | cons e rest ih =>
    obtain ⟨h1, h2⟩ := (Memory.risingFrom_some_iff e.1 rest).mp h
    unfold Memory.insert
    split
    · rename_i hlt
      refine (Memory.risingFrom_some_iff c.1 _).mpr ⟨?_, h⟩
      intro d hd
      rcases List.mem_cons.mp hd with rfl | hd
      · exact hlt
      · exact Nat.lt_trans hlt (h1 d hd)
    · rename_i hlt
      refine (Memory.risingFrom_some_iff e.1 _).mpr ⟨?_, ih h2 (fun d hd => hc d (by simp [hd]))⟩
      intro d hd
      rcases (Memory.mem_insert c d rest).mp hd with rfl | hd
      · have := hc e (by simp)
        omega
      · exact h1 d hd

/-- Every write within the address space keeps the canonical form. -/
theorem Memory.write_wf (mem : List Host.Cell) (a : Nat) (b : Byte) (h : Memory.wf mem = true)
    (ha : a < memSize) : Memory.wf (Memory.write mem a b) = true := by
  simp only [Memory.wf, Bool.and_eq_true, List.all_eq_true, decide_eq_true_eq, bne_iff_ne] at h ⊢
  obtain ⟨hr, hall⟩ := h
  unfold Memory.write
  dsimp only
  split
  · exact ⟨Memory.risingFrom_filter _ mem hr, fun c hc => hall c (List.mem_of_mem_filter hc)⟩
  · rename_i hb
    refine ⟨Memory.risingFrom_insert _ _ (Memory.risingFrom_filter _ mem hr) (by simp), ?_⟩
    intro c hc
    rcases (Memory.mem_insert _ c _).mp hc with rfl | hc
    · exact ⟨ha, hb⟩
    · exact hall c (List.mem_of_mem_filter hc)

/-- Every run of writes within the address space keeps the canonical form. -/
theorem Memory.writeSeq_wf (bs : List Byte) (mem : List Host.Cell) (a : Nat) (h : Memory.wf mem = true)
    (ha : a + bs.length ≤ memSize) : Memory.wf (Memory.writeSeq mem a bs) = true := by
  induction bs generalizing mem a with
  | nil => exact h
  | cons b bs ih =>
    simp only [List.length_cons] at ha
    exact ih _ _ (Memory.write_wf mem a b h (by omega)) (by omega)

/-! ### The multi-byte accesses (20_memory R53 to R55) -/

/-- Everything a run of writes can do: all bytes land, or the first address above 0xFFF faults and none does. -/
theorem memWriteSeq_eq (bs : List Byte) (a : Nat) (s : State) :
    memWriteSeq a bs s =
      if bs = [] ∨ a + bs.length ≤ memSize then .ok (s.setMem (Memory.writeSeq s.mem a bs))
      else .error (.memoryOutOfRange (max a memSize)) := by
  induction bs generalizing a s with
  | nil => simp [memWriteSeq, Memory.writeSeq, State.setMem]
  | cons b bs ih =>
    rw [memWriteSeq, memWrite]
    by_cases h : a > 0xFFF
    · have : ¬ (a + (b :: bs).length ≤ memSize) := by simp [memSize]; omega
      simp only [if_pos h, this, or_false, reduceCtorEq, if_false]
      rw [Nat.max_eq_left (by simp only [memSize]; omega)]
    · rw [if_neg h]
      dsimp only
      rw [ih]
      by_cases h2 : bs = [] ∨ a + 1 + bs.length ≤ memSize
      · have h3 : (b :: bs) = [] ∨ a + (b :: bs).length ≤ memSize := by
          right
          rcases h2 with rfl | h2
          · simp [memSize]; omega
          · simp; omega
        rw [if_pos h2, if_pos h3]
        rfl
      · have h3 : ¬ ((b :: bs) = [] ∨ a + (b :: bs).length ≤ memSize) := by
          simp only [not_or] at h2 ⊢
          exact ⟨by simp, by simp; omega⟩
        rw [if_neg h2, if_neg h3]
        congr 2
        simp only [memSize] at *
        omega

/-- Everything a run of reads can do: it answers the bytes, or the first address above 0xFFF faults. -/
theorem memReadSeq_eq (count a : Nat) (s : State) :
    memReadSeq a count s =
      if count = 0 ∨ a + count ≤ memSize then
        .ok ((List.range count).map (fun k => Memory.read s.mem (a + k)))
      else .error (.memoryOutOfRange (max a memSize)) := by
  induction count generalizing a with
  | zero => simp [memReadSeq]
  | succ count ih =>
    rw [memReadSeq, memRead]
    by_cases h : a > 0xFFF
    · have : ¬ (a + (count + 1) ≤ memSize) := by simp only [memSize]; omega
      simp only [if_pos h, this, or_false, Nat.succ_ne_zero, if_false]
      rw [Nat.max_eq_left (by simp only [memSize]; omega)]
    · rw [if_neg h]
      dsimp only
      rw [ih]
      by_cases h2 : count = 0 ∨ a + 1 + count ≤ memSize
      · have h3 : count + 1 = 0 ∨ a + (count + 1) ≤ memSize := by
          simp only [memSize] at *
          omega
        rw [if_pos h2, if_pos h3, List.range_succ_eq_map]
        simp [Function.comp_def, Nat.add_assoc, Nat.add_comm 1]
      · have h3 : ¬ (count + 1 = 0 ∨ a + (count + 1) ≤ memSize) := by
          simp only [memSize] at *
          omega
        rw [if_neg h2, if_neg h3]
        have h4 : max (a + 1) memSize = max a memSize := by
          simp only [memSize] at *
          omega
        rw [h4]

/-! ### Register runs (42_index_memory R174, R175) -/

@[simp] theorem State.firstRegs_length (s : State) (x : Reg) : (s.firstRegs x).length = x.val + 1 := by
  simp [State.firstRegs]

theorem State.firstRegs_getElem (s : State) (x : Reg) (k : Nat) (h : k < (s.firstRegs x).length) :
    (s.firstRegs x)[k] = s.getV ⟨k, by simp at h; omega⟩ := by
  simp [State.firstRegs, State.getV]

/-- What loading a run of registers leaves in each (42_index_memory R175). -/
theorem State.putRegs_getV (bs : List Byte) (k : Nat) (s : State) (q : Reg) (hk : k + bs.length ≤ 16) :
    (State.putRegs k bs s).getV q =
      if h : k ≤ q.val ∧ q.val < k + bs.length then bs[q.val - k]'(by omega) else s.getV q := by
  induction bs generalizing k s with
  | nil =>
    rw [dif_neg (by simp)]
    rfl
  | cons b bs ih =>
    simp only [List.length_cons] at hk
    rw [State.putRegs, ih _ _ (by omega)]
    have hq : (q = toNibble k) ↔ q.val = k := by
      simp [toNibble, Fin.ext_iff, Fin.ofNat]
      omega
    by_cases h1 : k + 1 ≤ q.val ∧ q.val < k + 1 + bs.length
    · have h2 : k ≤ q.val ∧ q.val < k + (b :: bs).length := by simp; omega
      have h3 : q.val - k = (q.val - (k + 1)) + 1 := by omega
      rw [dif_pos h1, dif_pos h2]
      simp [h3]
    · rw [dif_neg h1, State.setV_getV]
      by_cases h2 : q.val = k
      · have h4 : k ≤ q.val ∧ q.val < k + (b :: bs).length := by simp; omega
        rw [if_pos (hq.mpr h2), dif_pos h4]
        simp [h2]
      · have h3 : ¬ (k ≤ q.val ∧ q.val < k + (b :: bs).length) := by simp; omega
        rw [dif_neg h3, if_neg (fun e => h2 (hq.mp e))]

end Sys2Proof.Machine
end

