-- ==== Sys2Proof/Laws/Screen.lean ====
section
/-! SUPPORT. The framebuffer: what toggling a pixel does, the canonical form drawing keeps, and what drawing a list
of sprite bits can do. -/

namespace Sys2Proof.Machine

/-! ### One pixel -/

theorem Fb.mem_insert (p q : Nat × Nat) (fb : List (Nat × Nat)) : q ∈ Fb.insert p fb ↔ q = p ∨ q ∈ fb := by
  induction fb with
  | nil => simp [Fb.insert]
  | cons e rest ih =>
    unfold Fb.insert
    split
    · simp
    · simp only [List.mem_cons, ih]
      tauto

/-- Toggling a pixel inverts it and leaves every other pixel as it was (44_display R232). It holds of every list of
pixels. -/
theorem Fb.lit_toggle (fb : List (Nat × Nat)) (p q : Nat × Nat) :
    Fb.lit (Fb.toggle fb p) q = (Fb.lit fb q ^^ decide (q = p)) := by
  by_cases hp : Fb.lit fb p = true
  · have hp' : p ∈ fb := by simpa [Fb.lit] using hp
    by_cases hq : q = p
    · subst hq
      simp [Fb.toggle, Fb.lit, hp']
    · simp [Fb.toggle, Fb.lit, hp', hq]
  · have hp' : p ∉ fb := by simpa [Fb.lit] using hp
    by_cases hq : q = p
    · subst hq
      simp [Fb.toggle, Fb.lit, hp', Fb.mem_insert]
    · simp [Fb.toggle, Fb.lit, hp', Fb.mem_insert, hq]

/-! ### The canonical form -/

theorem pixelBefore_trans {p q r : Nat × Nat} (h1 : pixelBefore p q = true) (h2 : pixelBefore q r = true) :
    pixelBefore p r = true := by
  simp only [pixelBefore, Bool.or_eq_true, Bool.and_eq_true, decide_eq_true_eq] at *
  omega

theorem pixelBefore_total {p q : Nat × Nat} (h : pixelBefore p q ≠ true) (hne : p ≠ q) :
    pixelBefore q p = true := by
  obtain ⟨a, b⟩ := p
  obtain ⟨c, d⟩ := q
  have hne' : a ≠ c ∨ b ≠ d := by
    by_contra hc
    simp only [not_or, not_not] at hc
    exact hne (by rw [hc.1, hc.2])
  simp only [pixelBefore, ne_eq, Bool.or_eq_true, Bool.and_eq_true, decide_eq_true_eq] at *
  omega

theorem Fb.risingFrom_some_iff (lo : Nat × Nat) (fb : List (Nat × Nat)) :
    Fb.risingFrom (some lo) fb = true ↔
      (∀ p ∈ fb, pixelBefore lo p = true) ∧ Fb.risingFrom none fb = true := by
  induction fb generalizing lo with
  | nil => simp [Fb.risingFrom]
  | cons c rest ih =>
    simp only [Fb.risingFrom, Bool.and_eq_true, List.mem_cons, forall_eq_or_imp]
    constructor
    · rintro ⟨h1, h2⟩
      exact ⟨⟨h1, fun d hd => pixelBefore_trans h1 (((ih c).mp h2).1 d hd)⟩, h2⟩
    · rintro ⟨⟨h1, _⟩, h2⟩
      exact ⟨h1, h2⟩

theorem Fb.risingFrom_filter (f : Nat × Nat → Bool) (fb : List (Nat × Nat))
    (h : Fb.risingFrom none fb = true) : Fb.risingFrom none (fb.filter f) = true := by
  induction fb with
  | nil => exact h
  | cons c rest ih =>
    obtain ⟨h1, h2⟩ := (Fb.risingFrom_some_iff c rest).mp h
    by_cases hp : f c
    · rw [List.filter_cons_of_pos hp]
      exact (Fb.risingFrom_some_iff c _).mpr ⟨fun d hd => h1 d (List.mem_of_mem_filter hd), ih h2⟩
    · rw [List.filter_cons_of_neg hp]
      exact ih h2

theorem Fb.risingFrom_insert (p : Nat × Nat) (fb : List (Nat × Nat)) (h : Fb.risingFrom none fb = true)
    (hp : p ∉ fb) : Fb.risingFrom none (Fb.insert p fb) = true := by
  induction fb with
  | nil => rfl
  | cons e rest ih =>
    obtain ⟨h1, h2⟩ := (Fb.risingFrom_some_iff e rest).mp h
    simp only [List.mem_cons, not_or] at hp
    unfold Fb.insert
    split
    · rename_i hlt
      refine (Fb.risingFrom_some_iff p _).mpr ⟨?_, h⟩
      intro d hd
      rcases List.mem_cons.mp hd with rfl | hd
      · exact hlt
      · exact pixelBefore_trans hlt (h1 d hd)
    · rename_i hlt
      refine (Fb.risingFrom_some_iff e _).mpr ⟨?_, ih h2 hp.2⟩
      intro d hd
      rcases (Fb.mem_insert p d rest).mp hd with rfl | hd
      · exact pixelBefore_total hlt hp.1
      · exact h1 d hd

/-- Toggling a pixel of the screen keeps the canonical form. -/
theorem Fb.toggle_wf (cfg : Config) (fb : List (Nat × Nat)) (p : Nat × Nat) (h : Fb.wf cfg fb = true)
    (hp : p.1 < cfg.width ∧ p.2 < cfg.height) : Fb.wf cfg (Fb.toggle fb p) = true := by
  simp only [Fb.wf, Bool.and_eq_true, List.all_eq_true, decide_eq_true_eq] at h ⊢
  obtain ⟨hr, hall⟩ := h
  unfold Fb.toggle
  split
  · exact ⟨Fb.risingFrom_filter _ fb hr, fun q hq => hall q (List.mem_of_mem_filter hq)⟩
  · rename_i hlit
    refine ⟨Fb.risingFrom_insert p fb hr (by simpa [Fb.lit] using hlit), ?_⟩
    intro q hq
    rcases (Fb.mem_insert p q fb).mp hq with rfl | hq
    · exact hp
    · exact hall q hq

/-- Every target pixel lies on a screen that has pixels (44_display R230). -/
theorem targetPixel_inside (cfg : Config) (hw : 0 < cfg.width) (hh : 0 < cfg.height) (xv yv r b : Nat) :
    (targetPixel cfg xv yv r b).1 < cfg.width ∧ (targetPixel cfg xv yv r b).2 < cfg.height :=
  ⟨Nat.mod_lt _ hw, Nat.mod_lt _ hh⟩

/-! ### Drawing as one list of sprite bits -/

/-- The pixels a sprite visits with their bits, in the order of 44_display R232. -/
def spriteBits (cfg : Config) (xv yv : Nat) : Nat → List Byte → List ((Nat × Nat) × Bool)
  | _, [] => []
  | r, row :: rows =>
    (List.range 8).map (fun b => (targetPixel cfg xv yv r b, spriteBit row b)) ++ spriteBits cfg xv yv (r + 1) rows

/-- Drawing a list of pixels with their bits. -/
def drawList (bits : List ((Nat × Nat) × Bool)) (acc : List (Nat × Nat) × Bool) : List (Nat × Nat) × Bool :=
  bits.foldl (fun a pb => drawBit pb.1 pb.2 a) acc

theorem drawRows_eq_drawList (cfg : Config) (xv yv : Nat) (rows : List Byte) (r : Nat)
    (acc : List (Nat × Nat) × Bool) :
    drawRows cfg xv yv r rows acc = drawList (spriteBits cfg xv yv r rows) acc := by
  induction rows generalizing r acc with
  | nil => rfl
  | cons row rows ih =>
    simp only [drawRows, spriteBits, ih, drawList, List.foldl_append, List.foldl_map, drawRow]

theorem mem_spriteBits (cfg : Config) (xv yv : Nat) (rows : List Byte) (r : Nat) (pb : (Nat × Nat) × Bool) :
    pb ∈ spriteBits cfg xv yv r rows ↔
      ∃ k, ∃ h : k < rows.length, ∃ b, b < 8 ∧ pb = (targetPixel cfg xv yv (r + k) b, spriteBit rows[k] b) := by
  induction rows generalizing r with
  | nil => simp [spriteBits]
  | cons row rows ih =>
    simp only [spriteBits, List.mem_append, List.mem_map, List.mem_range, ih]
    constructor
    · rintro (⟨b, hb, rfl⟩ | ⟨k, hk, b, hb, rfl⟩)
      · exact ⟨0, by simp, b, hb, by simp⟩
      · exact ⟨k + 1, by simpa using hk, b, hb, by simp [Nat.add_assoc, Nat.add_comm 1]⟩
    · rintro ⟨k, hk, b, hb, rfl⟩
      cases k with
      | zero => exact Or.inl ⟨b, hb, by simp⟩
      | succ k => exact Or.inr ⟨k, by simpa using hk, b, hb, by simp [Nat.add_assoc, Nat.add_comm 1]⟩

/-- A sprite's bits fall on distinct pixels of a screen at least as large as a sprite (91 N6, 44_display R230). -/
theorem spriteBits_nodup (cfg : Config) (xv yv : Nat) (rows : List Byte) (hw : 8 ≤ cfg.width)
    (hh : 16 ≤ cfg.height) (r : Nat) (hr : r + rows.length ≤ 16) :
    ((spriteBits cfg xv yv r rows).map Prod.fst).Nodup := by
  have key : ∀ v a b n z : Nat, a < n → b < n → n ≤ z → (v + a) % z = (v + b) % z → a = b := by
    intro v a b n z ha hb hn h
    have : a % z = b % z := Nat.ModEq.add_left_cancel' v h
    rwa [Nat.mod_eq_of_lt (by omega), Nat.mod_eq_of_lt (by omega)] at this
  induction rows generalizing r with
  | nil => simp [spriteBits]
  | cons row rows ih =>
    simp only [List.length_cons] at hr
    simp only [spriteBits, List.map_append, List.map_map]
    rw [List.nodup_append]
    refine ⟨?_, ih (r + 1) (by omega), ?_⟩
    · rw [List.nodup_map_iff_inj_on List.nodup_range]
      intro a ha b hb h
      simp only [Function.comp, targetPixel, Prod.mk.injEq, List.mem_range] at *
      exact key xv a b 8 _ ha hb hw h.1
    · intro p hp q hq e
      subst e
      simp only [List.mem_map, List.mem_range, Function.comp] at hp hq
      obtain ⟨b, hb, rfl⟩ := hp
      obtain ⟨pb, hpb, he⟩ := hq
      obtain ⟨k, hk, c, hc, rfl⟩ := (mem_spriteBits _ _ _ _ _ _).mp hpb
      simp only [targetPixel, Prod.mk.injEq] at he
      have := key yv (r + 1 + k) r 16 cfg.height (by omega) (by omega) hh he.2
      omega

/-- Drawing bits at distinct pixels: each pixel is XORed with its bit, and a pixel of no bit keeps its value. -/
theorem drawList_lit (bits : List ((Nat × Nat) × Bool)) (acc : List (Nat × Nat) × Bool)
    (hd : (bits.map Prod.fst).Nodup) (q : Nat × Nat) :
    Fb.lit (drawList bits acc).1 q = (Fb.lit acc.1 q ^^ decide ((q, true) ∈ bits)) := by
  induction bits generalizing acc with
  | nil => simp [drawList]
  | cons pb bits ih =>
    simp only [List.map_cons, List.nodup_cons] at hd
    have step : drawList (pb :: bits) acc = drawList bits (drawBit pb.1 pb.2 acc) := rfl
    rw [step, ih _ hd.2]
    obtain ⟨p, b⟩ := pb
    cases b with
    | false => simp [drawBit]
    | true =>
      simp only [drawBit, if_true, Fb.lit_toggle, List.mem_cons, Prod.mk.injEq, and_true]
      by_cases hq : q = p
      · subst hq
        have : (q, true) ∉ bits := fun hm => hd.1 (List.mem_map.mpr ⟨_, hm, rfl⟩)
        simp [this]
      · simp [hq]

/-- The collision of bits at distinct pixels: some bit of 1 falls on a pixel that was 1 before the drawing
(44_display R232). -/
theorem drawList_collision (bits : List ((Nat × Nat) × Bool)) (acc : List (Nat × Nat) × Bool)
    (hd : (bits.map Prod.fst).Nodup) :
    (drawList bits acc).2 = (acc.2 || bits.any (fun pb => pb.2 && Fb.lit acc.1 pb.1)) := by
  induction bits generalizing acc with
  | nil => simp [drawList]
  | cons pb bits ih =>
    simp only [List.map_cons, List.nodup_cons] at hd
    have step : drawList (pb :: bits) acc = drawList bits (drawBit pb.1 pb.2 acc) := rfl
    rw [step, ih _ hd.2]
    obtain ⟨p, b⟩ := pb
    cases b with
    | false => simp [drawBit]
    | true =>
      have hrest : bits.any (fun pb => pb.2 && Fb.lit (Fb.toggle acc.1 p) pb.1)
          = bits.any (fun pb => pb.2 && Fb.lit acc.1 pb.1) := by
        rw [Bool.eq_iff_iff, List.any_eq_true, List.any_eq_true]
        refine exists_congr fun pb => and_congr_right fun hm => ?_
        have hne : pb.1 ≠ p := fun e => hd.1 (List.mem_map.mpr ⟨_, hm, e⟩)
        simp [Fb.lit_toggle, hne]
      simp only [drawBit, if_true, List.any_cons, Bool.true_and, hrest, Bool.or_assoc]

/-- Drawing on a screen that has pixels keeps the canonical form. -/
theorem drawRows_wf (cfg : Config) (hw : 0 < cfg.width) (hh : 0 < cfg.height) (xv yv r : Nat) (rows : List Byte)
    (acc : List (Nat × Nat) × Bool) (h : Fb.wf cfg acc.1 = true) :
    Fb.wf cfg (drawRows cfg xv yv r rows acc).1 = true := by
  rw [drawRows_eq_drawList]
  have hin : ∀ pb ∈ spriteBits cfg xv yv r rows, pb.1.1 < cfg.width ∧ pb.1.2 < cfg.height := by
    intro pb hm
    obtain ⟨k, _, b, _, rfl⟩ := (mem_spriteBits cfg xv yv rows r pb).mp hm
    exact targetPixel_inside cfg hw hh xv yv (r + k) b
  generalize spriteBits cfg xv yv r rows = bits at hin
  induction bits generalizing acc with
  | nil => exact h
  | cons pb bits ih =>
    refine ih (drawBit pb.1 pb.2 acc) ?_ (fun q hq => hin q (by simp [hq]))
    unfold drawBit
    split
    · exact Fb.toggle_wf cfg acc.1 pb.1 h (hin pb (by simp))
    · exact h

end Sys2Proof.Machine
end

