-- ==== Sys2Proof/Laws/Exec.lean ====
section
/-! SUPPORT. What the instructions with a fault or a conditional write leave when they answer a next state: one
inversion lemma for each, so that no later proof unfolds them. The other meanings are one `finish`, and unfold by
`rfl`. -/

namespace Sys2Proof.Machine

/-- RET (40_control_flow R101). -/
theorem execRet_next {s t : State} (h : execRet s = .next t) :
    s.sp ≠ 0 ∧ t = applyEffect (.jump s.top.toNat) s.drop := by
  unfold execRet at h
  split at h
  · cases h
  · injection h with h
    exact ⟨by assumption, h.symm⟩

/-- CALL (40_control_flow R103). -/
theorem execCall_next {nnn : Addr} {s t : State} (h : execCall nnn s = .next t) :
    s.sp ≠ 11 ∧ t = applyEffect (.jump nnn.toNat) (s.push (s.pc + 2)) := by
  unfold execCall at h
  split at h
  · cases h
  · injection h with h
    exact ⟨by assumption, h.symm⟩

/-- SKP (43_timers_keypad R205). -/
theorem execSkp_next {x : Reg} {s t : State} (h : execSkp x s = .next t) :
    (s.getV x).toNat ≤ 15 ∧ t = applyEffect (skipIf (keyDown s.keys (s.getV x).toNat)) s := by
  unfold execSkp at h
  split at h
  · cases h
  · injection h with h
    exact ⟨by omega, h.symm⟩

/-- SKNP (43_timers_keypad R206). -/
theorem execSknp_next {x : Reg} {s t : State} (h : execSknp x s = .next t) :
    (s.getV x).toNat ≤ 15 ∧ t = applyEffect (skipIf (!keyDown s.keys (s.getV x).toNat)) s := by
  unfold execSknp at h
  split at h
  · cases h
  · injection h with h
    exact ⟨by omega, h.symm⟩

/-- LD ST,Vx (43_timers_keypad R204). -/
theorem execLdSt_next {x : Reg} {s t : State} (h : execLdSt x s = .next t) :
    t = applyEffect .advance s ∨ t = applyEffect .advance (s.setSt (s.getV x)) := by
  injection h with h
  split at h
  · exact Or.inr h.symm
  · exact Or.inl h.symm

/-- CLS (44_display R231). -/
theorem execCls_next {s t : State} (h : execCls s = .next t) :
    t = applyEffect .advance (s.setFb []) ∨ t = applyEffect .advance ((s.setFb []).setRedraw true) := by
  unfold execCls at h
  injection h with h
  split at h
  · exact Or.inr h.symm
  · exact Or.inl h.symm

/-- When CLS sets the redraw mark (44_display R231). -/
theorem execCls_redraw {s t : State} (h : execCls s = .next t) : t.redraw = (s.redraw || s.cfg.clsRedraw) := by
  unfold execCls at h
  injection h with h
  subst h
  cases hc : s.cfg.clsRedraw <;> simp

/-- LD B,Vx (42_index_memory R173). -/
theorem execLdB_next {x : Reg} {s t : State} (h : execLdB x s = .next t) :
    dataAddr s 0 + 3 ≤ memSize ∧
      t = applyEffect .advance (s.setMem (Memory.writeSeq s.mem (dataAddr s 0) (bcdDigits (s.getV x)))) := by
  simp only [execLdB, memWriteSeq_eq] at h
  split at h
  · cases h
  · rename_i u hu
    split at hu
    · rename_i hc
      injection hu with hu
      injection h with h
      subst hu
      exact ⟨by simpa [bcdDigits] using hc, h.symm⟩
    · cases hu

/-- LD [I],Vx (42_index_memory R174). -/
theorem execStoreRegs_next {x : Reg} {s t : State} (h : execStoreRegs x s = .next t) :
    dataAddr s 0 + (x.val + 1) ≤ memSize ∧
      t = applyEffect .advance (s.setMem (Memory.writeSeq s.mem (dataAddr s 0) (s.firstRegs x))) := by
  simp only [execStoreRegs, memWriteSeq_eq] at h
  split at h
  · cases h
  · rename_i u hu
    split at hu
    · rename_i hc
      injection hu with hu
      injection h with h
      subst hu
      refine ⟨?_, h.symm⟩
      rcases hc with hc | hc
      · have := congrArg List.length hc
        simp at this
      · simpa using hc
    · cases hu

/-- LD Vx,[I] (42_index_memory R175). -/
theorem execLoadRegs_next {x : Reg} {s t : State} (h : execLoadRegs x s = .next t) :
    dataAddr s 0 + (x.val + 1) ≤ memSize ∧
      t = applyEffect .advance
        (State.putRegs 0 ((List.range (x.val + 1)).map (fun k => Memory.read s.mem (dataAddr s 0 + k))) s) := by
  simp only [execLoadRegs, memReadSeq_eq] at h
  split at h
  · cases h
  · rename_i u hu
    split at hu
    · rename_i hc
      injection hu with hu
      injection h with h
      subst hu
      exact ⟨by simpa using hc, h.symm⟩
    · cases hu

/-- DRW Vx,Vy,n (44_display R232). -/
theorem execDrw_next {x y : Reg} {n : Nibble} {s t : State} (h : execDrw x y n s = .next t) :
    (n.val = 0 ∨ dataAddr s 0 + n.val ≤ memSize) ∧
      ∃ drawn, drawn = drawRows s.cfg ((coordState s).getV x).toNat ((coordState s).getV y).toNat 0
          ((List.range n.val).map (fun k => Memory.read s.mem (dataAddr s 0 + k))) (s.fb, false) ∧
        t = applyEffect .advance (((s.setFb drawn.1).setV flagReg (flagByte drawn.2)).setRedraw true) := by
  simp only [execDrw, memReadSeq_eq] at h
  split at h
  · cases h
  · rename_i rows hr
    split at hr
    · rename_i hc
      injection hr with hr
      injection h with h
      subst hr
      exact ⟨hc, _, rfl, h.symm⟩
    · cases hr

end Sys2Proof.Machine
end

