-- ==== Sys2Proof/Laws/Values.lean ====
section
/-! SUPPORT. The values the small operations give, as natural numbers. -/

namespace Sys2Proof.Machine

/-- The font has sixteen glyphs of five bytes (10_state R38). -/
@[simp] theorem fontBytes_length : fontBytes.length = 80 := by decide

/-- An address above the font that nothing lists reads as zero (10_state R37). -/
theorem unlistedByte_above {a : Nat} (h : 80 ≤ a) : unlistedByte a = 0 := by
  simp [unlistedByte, List.getD, fontBytes_length, h]

/-- A timer goes down by one and stops at 0 (43_timers_keypad R200). -/
theorem tickDown_toNat : ∀ b : Byte, (tickDown b).toNat = b.toNat - 1 := by decide

/-- A flag is 1 or 0 (10_state R21). -/
theorem flagByte_toNat (b : Bool) : (flagByte b).toNat = if b then 1 else 0 := by
  cases b <;> rfl

/-- A slot keeps a return address modulo two to its width (the model's choice, log entry 18). -/
theorem slotValue_toNat (cfg : Config) (a : Word) : (slotValue cfg a).toNat = a.toNat % 2 ^ cfg.slotWidth := by
  have h := Nat.mod_le a.toNat (2 ^ cfg.slotWidth)
  have := a.isLt
  simp only [slotValue, BitVec.toNat_ofNat]
  exact Nat.mod_eq_of_lt (by omega)

/-- A slot of 16 bits or more keeps a return address whole (92 D21 for 16; log entry 18 for more). -/
theorem slotValue_of_wide {cfg : Config} (h : 16 ≤ cfg.slotWidth) (a : Word) : slotValue cfg a = a := by
  apply BitVec.eq_of_toNat_eq
  rw [slotValue_toNat]
  exact Nat.mod_eq_of_lt (Nat.lt_of_lt_of_le a.isLt (Nat.pow_le_pow_right (by omega) h))

/-- SHR's result and flag (41_register_alu R140). -/
theorem shr_toNat : ∀ b : Byte, (b >>> 1).toNat = b.toNat / 2 ∧ (flagByte (lowBit b)).toNat = b.toNat % 2 := by
  decide

/-- SHL's result and flag (41_register_alu R142). -/
theorem shl_toNat : ∀ b : Byte,
    (b <<< 1).toNat = b.toNat * 2 % 256 ∧ (flagByte (highBit b)).toNat = b.toNat / 128 := by
  decide

/-- Three digits (42_index_memory R173). -/
@[simp] theorem bcdDigits_length (b : Byte) : (bcdDigits b).length = 3 := rfl

/-- The coordinates DRW reads, both readings of `VF_ALIAS` (44_display R232). -/
theorem coordState_getV (s : State) (r : Reg) :
    (coordState s).getV r = if r = flagReg ∧ s.cfg.vfAlias = .sequential then 0 else s.getV r := by
  unfold coordState
  split <;> simp_all

end Sys2Proof.Machine
end

