-- ==== Sys2Proof/Laws/Loader.lean ====
section
/-! SUPPORT. What reset and the loads leave in each field (70_reset_and_hazards R350 to R352). -/

namespace Sys2Proof.Machine

/-! ### applyReset -/

@[simp] theorem applyReset_pc (s : State) : (applyReset s).pc = State.reset.pc := rfl

@[simp] theorem applyReset_sp (s : State) : (applyReset s).sp = State.reset.sp := rfl

@[simp] theorem applyReset_stack (s : State) : (applyReset s).stack = State.reset.stack := rfl

@[simp] theorem applyReset_i (s : State) : (applyReset s).i = State.reset.i := rfl

@[simp] theorem applyReset_dt (s : State) : (applyReset s).dt = State.reset.dt := rfl

@[simp] theorem applyReset_st (s : State) : (applyReset s).st = State.reset.st := rfl

@[simp] theorem applyReset_keys (s : State) : (applyReset s).keys = State.reset.keys := rfl

@[simp] theorem applyReset_wait (s : State) : (applyReset s).wait = State.reset.wait := rfl

@[simp] theorem applyReset_waitReg (s : State) : (applyReset s).waitReg = State.reset.waitReg := rfl

@[simp] theorem applyReset_fb (s : State) : (applyReset s).fb = State.reset.fb := rfl

@[simp] theorem applyReset_redraw (s : State) : (applyReset s).redraw = State.reset.redraw := rfl

@[simp] theorem applyReset_fault (s : State) : (applyReset s).fault = State.reset.fault := rfl

@[simp] theorem applyReset_rnd (s : State) : (applyReset s).rnd = State.reset.rnd := rfl

@[simp] theorem applyReset_v (s : State) : (applyReset s).v = State.reset.v := rfl

@[simp] theorem applyReset_cfg (s : State) : (applyReset s).cfg = s.cfg := rfl

@[simp] theorem applyReset_inputs (s : State) : (applyReset s).inputs = s.inputs := rfl

@[simp] theorem applyReset_inputCount (s : State) : (applyReset s).inputCount = s.inputCount := rfl

/-- Memory is zero at every address before the glyph load (70_reset R350). -/
@[simp] theorem applyReset_read (s : State) (a : Nat) : Memory.read (applyReset s).mem a = 0 := by
  have h : (applyReset s).mem = Memory.writeSeq State.reset.mem 0 (List.replicate 80 0) := by
    simp only [applyReset, State.cleared, State.setMem, State.reset]
  rw [h, Memory.read_writeSeq]
  split
  · exact List.getElem_replicate _
  · rename_i ha
    exact unlistedByte_above (by simp only [List.length_replicate] at ha; omega)

/-! ### loadGlyphs -/

/-- Every byte after the glyph load (70_reset R351). -/
theorem loadGlyphs_read (s : State) (a : Nat) :
    Memory.read (loadGlyphs s).mem a = if h : a < 80 then s.cfg.font[a] else Memory.read s.mem a := by
  simp only [loadGlyphs, State.setMem_mem, Memory.read_writeSeq]
  by_cases h : a < 80
  · rw [dif_pos h, dif_pos (by simpa using h)]
    simp
  · rw [dif_neg h, dif_neg (by simpa using h)]

end Sys2Proof.Machine
end

