-- ==== Sys2Proof/Laws/PerInstr.lean ====
section
/-! SUPPORT. Statements made per instruction, one lemma per constructor. `OpNibble`: the first hexadecimal digit of an
instruction's word is the one its row of the opcode map gives (30_encoding R71, R74, R75). -/

namespace Sys2Proof.Laws

/-- The first digits the opcode map gives an instruction's words, and an unknown word's list its own
(30_encoding R74, R75). -/
def opNibbles : Instr → List Nat
  | .cls | .ret | .sys _ => [0]
  | .jp _ => [1]
  | .call _ => [2]
  | .seByte _ _ => [3]
  | .sneByte _ _ => [4]
  | .seReg _ _ => [5]
  | .ldByte _ _ => [6]
  | .addByte _ _ => [7]
  | .ldReg _ _ | .orReg _ _ | .andReg _ _ | .xorReg _ _
  | .addReg _ _ | .subReg _ _ | .shr _ _ | .subnReg _ _ | .shl _ _ => [8]
  | .sneReg _ _ => [9]
  | .ldI _ => [0xA]
  | .jpV0 _ => [0xB]
  | .rnd _ _ => [0xC]
  | .drw _ _ _ => [0xD]
  | .skp _ | .sknp _ => [0xE]
  | .ldVxDt _ | .ldVxK _ | .ldDt _ | .ldSt _
  | .addI _ | .ldF _ | .ldB _ | .storeRegs _ | .loadRegs _ => [0xF]
  | .unknown _ => [5, 8, 9, 0xE, 0xF]

/-- The word of a well-formed instruction begins with one of its row's digits. -/
def OpNibble.Statement (i : Instr) : Prop :=
  ∀ loose : Bool, i.wellFormed loose = true → opField (encode i) ∈ opNibbles i

/-- The list of unknown words names five first digits (30_encoding R75). -/
theorem opField_of_isUnknownWord {loose : Bool} {w : Word} (h : isUnknownWord loose w = true) :
    opField w ∈ [5, 8, 9, 0xE, 0xF] := by
  have := w.isLt
  simp only [isUnknownWord, Bool.or_eq_true, Bool.and_eq_true, beq_iff_eq] at h
  simp only [opField, bits, List.mem_cons, List.not_mem_nil, or_false]
  omega

theorem OpNibble.cls : OpNibble.Statement .cls := fun _ _ => by decide

theorem OpNibble.ret : OpNibble.Statement .ret := fun _ _ => by decide

theorem OpNibble.sys (nnn : Addr) : OpNibble.Statement (.sys nnn) := fun _ _ => by
  simp [encode, opNibbles]

theorem OpNibble.jp (nnn : Addr) : OpNibble.Statement (.jp nnn) := fun _ _ => by
  simp [encode, opNibbles]

theorem OpNibble.call (nnn : Addr) : OpNibble.Statement (.call nnn) := fun _ _ => by
  simp [encode, opNibbles]

theorem OpNibble.seByte (x : Reg) (kk : Byte) : OpNibble.Statement (.seByte x kk) := fun _ _ => by
  simp [encode, opNibbles]

theorem OpNibble.sneByte (x : Reg) (kk : Byte) : OpNibble.Statement (.sneByte x kk) := fun _ _ => by
  simp [encode, opNibbles]

theorem OpNibble.seReg (x y : Reg) : OpNibble.Statement (.seReg x y) := fun _ _ => by
  simp [encode, opNibbles]

theorem OpNibble.ldByte (x : Reg) (kk : Byte) : OpNibble.Statement (.ldByte x kk) := fun _ _ => by
  simp [encode, opNibbles]

theorem OpNibble.addByte (x : Reg) (kk : Byte) : OpNibble.Statement (.addByte x kk) := fun _ _ => by
  simp [encode, opNibbles]

theorem OpNibble.ldReg (x y : Reg) : OpNibble.Statement (.ldReg x y) := fun _ _ => by
  simp [encode, opNibbles]

theorem OpNibble.orReg (x y : Reg) : OpNibble.Statement (.orReg x y) := fun _ _ => by
  simp [encode, opNibbles]

theorem OpNibble.andReg (x y : Reg) : OpNibble.Statement (.andReg x y) := fun _ _ => by
  simp [encode, opNibbles]

theorem OpNibble.xorReg (x y : Reg) : OpNibble.Statement (.xorReg x y) := fun _ _ => by
  simp [encode, opNibbles]

theorem OpNibble.addReg (x y : Reg) : OpNibble.Statement (.addReg x y) := fun _ _ => by
  simp [encode, opNibbles]

theorem OpNibble.subReg (x y : Reg) : OpNibble.Statement (.subReg x y) := fun _ _ => by
  simp [encode, opNibbles]

theorem OpNibble.shr (x y : Reg) : OpNibble.Statement (.shr x y) := fun _ _ => by
  simp [encode, opNibbles]

theorem OpNibble.subnReg (x y : Reg) : OpNibble.Statement (.subnReg x y) := fun _ _ => by
  simp [encode, opNibbles]

theorem OpNibble.shl (x y : Reg) : OpNibble.Statement (.shl x y) := fun _ _ => by
  simp [encode, opNibbles]

theorem OpNibble.sneReg (x y : Reg) : OpNibble.Statement (.sneReg x y) := fun _ _ => by
  simp [encode, opNibbles]

theorem OpNibble.ldI (nnn : Addr) : OpNibble.Statement (.ldI nnn) := fun _ _ => by
  simp [encode, opNibbles]

theorem OpNibble.jpV0 (nnn : Addr) : OpNibble.Statement (.jpV0 nnn) := fun _ _ => by
  simp [encode, opNibbles]

theorem OpNibble.rnd (x : Reg) (kk : Byte) : OpNibble.Statement (.rnd x kk) := fun _ _ => by
  simp [encode, opNibbles]

theorem OpNibble.drw (x y : Reg) (n : Nibble) : OpNibble.Statement (.drw x y n) := fun _ _ => by
  simp [encode, opNibbles]

theorem OpNibble.skp (x : Reg) : OpNibble.Statement (.skp x) := fun _ _ => by
  simp [encode, opNibbles]

theorem OpNibble.sknp (x : Reg) : OpNibble.Statement (.sknp x) := fun _ _ => by
  simp [encode, opNibbles]

theorem OpNibble.ldVxDt (x : Reg) : OpNibble.Statement (.ldVxDt x) := fun _ _ => by
  simp [encode, opNibbles]

theorem OpNibble.ldVxK (x : Reg) : OpNibble.Statement (.ldVxK x) := fun _ _ => by
  simp [encode, opNibbles]

theorem OpNibble.ldDt (x : Reg) : OpNibble.Statement (.ldDt x) := fun _ _ => by
  simp [encode, opNibbles]

theorem OpNibble.ldSt (x : Reg) : OpNibble.Statement (.ldSt x) := fun _ _ => by
  simp [encode, opNibbles]

theorem OpNibble.addI (x : Reg) : OpNibble.Statement (.addI x) := fun _ _ => by
  simp [encode, opNibbles]

theorem OpNibble.ldF (x : Reg) : OpNibble.Statement (.ldF x) := fun _ _ => by
  simp [encode, opNibbles]

theorem OpNibble.ldB (x : Reg) : OpNibble.Statement (.ldB x) := fun _ _ => by
  simp [encode, opNibbles]

theorem OpNibble.storeRegs (x : Reg) : OpNibble.Statement (.storeRegs x) := fun _ _ => by
  simp [encode, opNibbles]

theorem OpNibble.loadRegs (x : Reg) : OpNibble.Statement (.loadRegs x) := fun _ _ => by
  simp [encode, opNibbles]

theorem OpNibble.unknown (w : Word) : OpNibble.Statement (.unknown w) :=
  fun _ h => opField_of_isUnknownWord h

end Sys2Proof.Laws
end

