-- ==== Sys2Proof/Laws/Step.lean ====
section
/-! SUPPORT. What a step can do, said once (30_encoding R86). -/

namespace Sys2Proof.Machine

/-- The instruction that a step of `s` fetches and decodes (30_encoding R86, 20_memory R56). -/
def State.fetched (s : State) : Instr :=
  decode s.cfg.loose59 (wordOfBytes (Memory.read s.mem s.pc.toNat) (Memory.read s.mem (s.pc.toNat + 1)))

theorem step_faulted {s : State} {f : Fault} (h : s.fault = some f) : step s = .fault f := by
  simp only [step, h]

theorem step_waiting {s : State} (h : s.fault = none) (hw : s.wait = true) :
    step s = .next (waitScan s.beginStep) := by
  simp only [step, h, State.beginStep_wait, hw, if_true]

theorem fetch_ticked (s : State) :
    fetch (timerTick s.beginStep) =
      if s.pc.toNat + 1 > 0xFFF then .error (.fetchOutOfRange s.pc)
      else .ok (wordOfBytes (Memory.read s.mem s.pc.toNat) (Memory.read s.mem (s.pc.toNat + 1))) := rfl

theorem step_unfetchable {s : State} (h : s.fault = none) (hw : s.wait = false) (hp : s.pc.toNat + 1 > 0xFFF) :
    step s = .next (takeFault s (.fetchOutOfRange s.pc)) := by
  simp only [step, h, State.beginStep_wait, hw, Bool.false_eq_true, if_false, fetch_ticked, if_pos hp, settle]

theorem step_fetchable {s : State} (h : s.fault = none) (hw : s.wait = false) (hp : s.pc.toNat + 1 ≤ 0xFFF) :
    step s = settle s (exec s.fetched (timerTick s.beginStep)) := by
  have hp' : ¬ (s.pc.toNat + 1 > 0xFFF) := by omega
  simp only [step, h, State.beginStep_wait, hw, Bool.false_eq_true, if_false, fetch_ticked, if_neg hp',
    timerTick_cfg, State.beginStep_cfg, State.fetched]

/-- A step that answers a next state began unfaulted, and either scanned the keypad, or recorded a fault, or ran the
fetched instruction to a next state. -/
theorem step_cases {s t : State} (h : step s = .next t) :
    s.fault = none ∧
      ((s.wait = true ∧ t = waitScan s.beginStep) ∨
       (s.wait = false ∧ ∃ f, t = takeFault s f) ∨
       (s.wait = false ∧ s.pc.toNat + 1 ≤ 0xFFF ∧ exec s.fetched (timerTick s.beginStep) = .next t)) := by
  cases hf : s.fault with
  | some f =>
    rw [step_faulted hf] at h
    cases h
  | none =>
    refine ⟨rfl, ?_⟩
    cases hw : s.wait with
    | true =>
      rw [step_waiting hf hw] at h
      injection h with h
      exact Or.inl ⟨rfl, h.symm⟩
    | false =>
      by_cases hp : s.pc.toNat + 1 ≤ 0xFFF
      · rw [step_fetchable hf hw hp] at h
        cases he : exec s.fetched (timerTick s.beginStep) with
        | next u =>
          rw [he] at h
          injection h with h
          subst h
          exact Or.inr (Or.inr ⟨rfl, hp, rfl⟩)
        | fault f =>
          rw [he] at h
          injection h with h
          exact Or.inr (Or.inl ⟨rfl, f, h.symm⟩)
        | refused r =>
          rw [he] at h
          cases h
      · rw [step_unfetchable hf hw (by omega)] at h
        injection h with h
        exact Or.inr (Or.inl ⟨rfl, _, h.symm⟩)

/-- The wait scan ends the wait with the least pressed key or changes nothing (43_timers_keypad R208). -/
theorem waitScan_cases (s : State) :
    (∃ k, firstKey s.keys = some k ∧ waitScan s = s.endWait k) ∨ (firstKey s.keys = none ∧ waitScan s = s) := by
  unfold waitScan
  cases firstKey s.keys with
  | some k => exact Or.inl ⟨k, rfl, rfl⟩
  | none => exact Or.inr ⟨rfl, rfl⟩

/-- The least pressed key (43_timers_keypad R208). -/
theorem firstKey_eq_some {keys : BitVec 16} {k : Reg} :
    firstKey keys = some k ↔ keyDown keys k.val = true ∧ ∀ j : Reg, j < k → keyDown keys j.val = false := by
  unfold firstKey
  rw [List.find?_eq_some_iff_getElem]
  constructor
  · rintro ⟨hk, i, hi, he, hlt⟩
    refine ⟨hk, fun j hj => ?_⟩
    have hik : i = k.val := by simpa [Fin.ext_iff] using he
    have := hlt j.val (by have : j.val < k.val := hj; omega)
    simpa using this
  · rintro ⟨hk, hlt⟩
    refine ⟨hk, k.val, by simp, by simp, fun j hj => ?_⟩
    simpa using hlt ⟨j, by omega⟩ (by exact hj)

/-- No key is pressed (43_timers_keypad R208). -/
theorem firstKey_eq_none {keys : BitVec 16} : firstKey keys = none ↔ ∀ k : Reg, keyDown keys k.val = false := by
  simp [firstKey]

end Sys2Proof.Machine
end

