-- ==== Sys2Proof/Laws/Run.lean ====
section
/-! SUPPORT. Runs of steps taken apart. -/

namespace Sys2Proof.Machine

@[simp] theorem afterSteps_zero (s : State) : afterSteps 0 s = some s := rfl

/-- A run of `m` steps and then `k` more. -/
theorem afterSteps_add {m : Nat} {s t : State} (h : afterSteps m s = some t) (k : Nat) :
    afterSteps (m + k) s = afterSteps k t := by
  induction m generalizing s with
  | zero =>
    obtain rfl : s = t := by simpa using h
    rw [Nat.zero_add]
  | succ m ih =>
    rw [Nat.succ_add, afterSteps]
    rw [afterSteps] at h
    split at h
    · exact ih h
    · cases h

/-- One step more. -/
theorem afterSteps_succ {n : Nat} {s t u : State} (h : afterSteps n s = some t) (hs : step t = .next u) :
    afterSteps (n + 1) s = some u := by
  rw [afterSteps_add h, afterSteps, hs]
  rfl

/-- The four conditions of the end of a run, one by one (60_exceptions R316). -/
theorem endConditions_iff (h : Addr) (s : State) :
    endConditions h s = true ↔ s.pc = h.setWidth 16 ∧ s.wait = false ∧ s.fault = none ∧ h.toNat + 1 < memSize ∧
      wordOfBytes (Memory.read s.mem h.toNat) (Memory.read s.mem (h.toNat + 1)) = encode (.jp h) := by
  simp only [endConditions, Bool.and_eq_true, beq_iff_eq, Bool.not_eq_true', decide_eq_true_eq, and_assoc]

end Sys2Proof.Machine
end

