-- ==== Sys2Proof/Machine/Asm.lean ====
section
/-! DEFINITION. The conventional mnemonics and operand syntax (30_encoding R78), for reading only: no step uses
them. -/

namespace Sys2Proof.Machine

/-- A hexadecimal digit. -/
def hexDigit (k : Nat) : String :=
  (["0", "1", "2", "3", "4", "5", "6", "7"] ++ ["8", "9", "A", "B", "C", "D", "E", "F"]).getD k ""

/-- `0x` and one digit. -/
def hex1 (k : Nat) : String := "0x" ++ hexDigit k

/-- `0x` and two digits. -/
def hex2 (k : Nat) : String := "0x" ++ hexDigit (k / 16) ++ hexDigit (k % 16)

/-- `0x` and three digits. -/
def hex3 (k : Nat) : String := "0x" ++ hexDigit (k / 256) ++ hexDigit (k / 16 % 16) ++ hexDigit (k % 16)

/-- `V0` to `VF`. -/
def regName (r : Reg) : String := "V" ++ hexDigit r.val

/-- A mnemonic with two operands. -/
def asm2 (name a b : String) : String := name ++ " " ++ a ++ ", " ++ b

/-- An instruction as 30_encoding R78 writes it; an unknown word as a raw hexadecimal word (95 conventions). -/
def asm : Instr → String
  | .cls => "CLS"
  | .ret => "RET"
  | .sys nnn => "SYS " ++ hex3 nnn.toNat
  | .jp nnn => "JP " ++ hex3 nnn.toNat
  | .call nnn => "CALL " ++ hex3 nnn.toNat
  | .seByte x kk => asm2 "SE" (regName x) (hex2 kk.toNat)
  | .sneByte x kk => asm2 "SNE" (regName x) (hex2 kk.toNat)
  | .seReg x y => asm2 "SE" (regName x) (regName y)
  | .ldByte x kk => asm2 "LD" (regName x) (hex2 kk.toNat)
  | .addByte x kk => asm2 "ADD" (regName x) (hex2 kk.toNat)
  | .ldReg x y => asm2 "LD" (regName x) (regName y)
  | .orReg x y => asm2 "OR" (regName x) (regName y)
  | .andReg x y => asm2 "AND" (regName x) (regName y)
  | .xorReg x y => asm2 "XOR" (regName x) (regName y)
  | .addReg x y => asm2 "ADD" (regName x) (regName y)
  | .subReg x y => asm2 "SUB" (regName x) (regName y)
  | .shr x _ => "SHR " ++ regName x
  | .subnReg x y => asm2 "SUBN" (regName x) (regName y)
  | .shl x _ => "SHL " ++ regName x
  | .sneReg x y => asm2 "SNE" (regName x) (regName y)
  | .ldI nnn => asm2 "LD" "I" (hex3 nnn.toNat)
  | .jpV0 nnn => asm2 "JP" "V0" (hex3 nnn.toNat)
  | .rnd x kk => asm2 "RND" (regName x) (hex2 kk.toNat)
  | .drw x y n => asm2 "DRW" (regName x) (regName y) ++ ", " ++ hex1 n.val
  | .skp x => "SKP " ++ regName x
  | .sknp x => "SKNP " ++ regName x
  | .ldVxDt x => asm2 "LD" (regName x) "DT"
  | .ldVxK x => asm2 "LD" (regName x) "K"
  | .ldDt x => asm2 "LD" "DT" (regName x)
  | .ldSt x => asm2 "LD" "ST" (regName x)
  | .addI x => asm2 "ADD" "I" (regName x)
  | .ldF x => asm2 "LD" "F" (regName x)
  | .ldB x => asm2 "LD" "B" (regName x)
  | .storeRegs x => asm2 "LD" "[I]" (regName x)
  | .loadRegs x => asm2 "LD" (regName x) "[I]"
  | .unknown w => hexDigit (w.toNat / 4096) ++ hexDigit (w.toNat / 256 % 16) ++ hexDigit (w.toNat / 16 % 16)
      ++ hexDigit (w.toNat % 16)

end Sys2Proof.Machine
end

