-- ==== Sys2Proof/Tests/Slice0.lean ====
section
/-! SUPPORT. Tests of the model: words written out from the opcode map (30_encoding R74), ill-formed terms, the spec's
own vectors (95_test_vectors), each one step, and a witness for the hypotheses of every statement that has some.
Every expected value is the spec's, but where a docstring names a choice of the model. -/

namespace Sys2Proof.Tests

open Sys2Proof Sys2Proof.Machine

/-! ### Helpers -/

/-- A launch with words at 0x200, and one queued input (95_test_vectors, conventions). -/
def launch (ws : List Word) (keys : BitVec 16 := 0) (rnd : Byte := 0) : State :=
  { State.reset with
    mem := Memory.writeSeq [] 0x200 (ws.flatMap (fun w => [highByte w, lowByte w]))
    inputs := [⟨keys, rnd⟩] }

/-- What one step leaves, seen through `f`; nothing where the step answers no next state. -/
def after {α : Type} (s : State) (f : State → α) : Option α :=
  match step s with
  | .next t => some (f t)
  | _ => none

/-- The bytes of memory from `a`. -/
def bytesAt (s : State) (a n : Nat) : List Byte :=
  (List.range n).map (fun k => Memory.read s.mem (a + k))

/-! ### Decoding: one word for every constructor, from the patterns of 30_encoding R74 -/

theorem test_decode_system :
    decode false 0x00E0 = .cls ∧ decode false 0x00EE = .ret ∧ decode false 0x0123 = .sys 0x123
    ∧ decode false 0x0000 = .sys 0x000 := by decide

theorem test_decode_control :
    decode false 0x1234 = .jp 0x234 ∧ decode false 0x2ABC = .call 0xABC ∧ decode false 0x3A42 = .seByte 10 0x42
    ∧ decode false 0x4B24 = .sneByte 11 0x24 ∧ decode false 0x5CD0 = .seReg 12 13
    ∧ decode false 0x9EF0 = .sneReg 14 15 ∧ decode false 0xBFED = .jpV0 0xFED := by decide

theorem test_decode_alu :
    decode false 0x6A42 = .ldByte 10 0x42 ∧ decode false 0x7B01 = .addByte 11 0x01
    ∧ decode false 0x8120 = .ldReg 1 2 ∧ decode false 0x8341 = .orReg 3 4 ∧ decode false 0x8562 = .andReg 5 6
    ∧ decode false 0x8783 = .xorReg 7 8 ∧ decode false 0x89A4 = .addReg 9 10 ∧ decode false 0x8BC5 = .subReg 11 12
    ∧ decode false 0x8DE6 = .shr 13 14 ∧ decode false 0x8F07 = .subnReg 15 0 ∧ decode false 0x812E = .shl 1 2
    ∧ decode false 0xC30F = .rnd 3 0x0F := by decide

theorem test_decode_index :
    decode false 0xA2F0 = .ldI 0x2F0 ∧ decode false 0xF41E = .addI 4 ∧ decode false 0xF529 = .ldF 5
    ∧ decode false 0xF633 = .ldB 6 ∧ decode false 0xF755 = .storeRegs 7 ∧ decode false 0xF865 = .loadRegs 8 := by
  decide

theorem test_decode_timers_keypad :
    decode false 0xE29E = .skp 2 ∧ decode false 0xE3A1 = .sknp 3 ∧ decode false 0xF907 = .ldVxDt 9
    ∧ decode false 0xFA0A = .ldVxK 10 ∧ decode false 0xFB15 = .ldDt 11 ∧ decode false 0xFC18 = .ldSt 12 := by decide

/-- DU-4. -/
theorem test_decode_display : decode false 0xD123 = .drw 1 2 3 := by decide

/-- DU-1. -/
theorem test_decode_unknown :
    decode false 0x5121 = .unknown 0x5121 ∧ decode false 0x8008 = .unknown 0x8008
    ∧ decode false 0x800F = .unknown 0x800F ∧ decode false 0x9121 = .unknown 0x9121
    ∧ decode false 0xE000 = .unknown 0xE000 ∧ decode false 0xE19F = .unknown 0xE19F
    ∧ decode false 0xF0FF = .unknown 0xF0FF ∧ decode false 0xF130 = .unknown 0xF130 := by decide

/-- DU-2 and DU-3: `LOOSE_5_9`. -/
theorem test_decode_loose : decode true 0x5121 = .seReg 1 2 ∧ decode true 0x912F = .sneReg 1 2 := by decide

/-- Words of rows 4, 15, 34, 26 and 24 of the opcode map and an unknown word, bit by bit: op, then x, then y, then n. -/
theorem test_decode_bits :
    decode false 0b0001001000110100 = .jp 0x234 ∧ decode false 0b1000100110100100 = .addReg 9 10
    ∧ decode false 0b1111011001010101 = .storeRegs 6 ∧ decode false 0b1110010110100001 = .sknp 5
    ∧ decode false 0b1101000100100011 = .drw 1 2 3 ∧ decode false 0b1000000000001000 = .unknown 0x8008 := by decide

theorem test_decodeBytes_truncated : decodeBytes false [0x12] = .error .truncated := by decide

/-- The rows' words as spec/opcode_table.json numbers them, and a length no instruction has. -/
theorem test_decodeTableWord :
    decodeTableWord 16 0xD123 = some (.drw 1 2 3) ∧ decodeTableWord 16 0x00EE = some .ret
    ∧ decodeTableWord 32 0x00EE = none := by decide

/-- 30_encoding R78: the assembled shifts, and the conventional syntax. -/
theorem test_assembly :
    assembleShr 3 = 0x8306 ∧ assembleShl 4 = 0x840E ∧ asm (.drw 0 1 5) = "DRW V0, V1, 0x5"
    ∧ asm (.storeRegs 2) = "LD [I], V2" ∧ asm (.seByte 0 0) = "SE V0, 0x00" := by decide

/-! ### Encoding, against the patterns of 30_encoding R74 -/

theorem test_encode :
    encode (.jp 0x234) = 0x1234 ∧ encode (.sneReg 14 15) = 0x9EF0 ∧ encode (.shl 1 2) = 0x812E
    ∧ encode (.rnd 3 0x0F) = 0xC30F ∧ encode (.ldB 6) = 0xF633 ∧ encode (.sknp 3) = 0xE3A1
    ∧ encodeBytes (.drw 1 2 3) = [0xD1, 0x23] := by decide

/-! ### WellFormed refuses what stands for no word (30_encoding R74, R75) -/

theorem test_illformed_sys_cls : Instr.wellFormed false (.sys 0x0E0) = false := by decide
theorem test_illformed_sys_ret : Instr.wellFormed false (.sys 0x0EE) = false := by decide
theorem test_illformed_unknown_fixed : Instr.wellFormed false (.unknown 0x00E0) = false := by decide
theorem test_illformed_unknown_5 : Instr.wellFormed false (.unknown 0x5120) = false := by decide
theorem test_illformed_unknown_5_loose : Instr.wellFormed true (.unknown 0x5121) = false := by decide
theorem test_illformed_unknown_8 : Instr.wellFormed false (.unknown 0x812E) = false := by decide
theorem test_illformed_unknown_9 : Instr.wellFormed false (.unknown 0x9120) = false := by decide
theorem test_illformed_unknown_9_loose : Instr.wellFormed true (.unknown 0x9121) = false := by decide
theorem test_illformed_unknown_E : Instr.wellFormed false (.unknown 0xE19E) = false := by decide
theorem test_illformed_unknown_F : Instr.wellFormed false (.unknown 0xF165) = false := by decide
theorem test_wellformed_unknown_each_family :
    Instr.wellFormed false (.unknown 0x5121) = true ∧ Instr.wellFormed false (.unknown 0x8128) = true
    ∧ Instr.wellFormed false (.unknown 0x812F) = true ∧ Instr.wellFormed false (.unknown 0x9121) = true
    ∧ Instr.wellFormed false (.unknown 0xE19F) = true ∧ Instr.wellFormed false (.unknown 0xF166) = true := by decide

/-! ### Control flow (95_test_vectors CF) -/

/-- CF-1. -/
theorem test_jp : after (launch [0x1234]) (·.pc) = some 0x234 := by decide

/-- CF-2. -/
theorem test_ret_underflow :
    after (launch [0x00EE]) (fun t => (t.fault, t.pc, t.sp)) = some (some (.stackUnderflow 0x200), 0x200, 0) := by
  decide

/-- EX-3, step 2. -/
theorem test_ret : after ((launch [0x00EE]).push 0x302) (fun t => (t.pc, t.sp, t.stack[1])) = some (0x302, 0, 0x302) := by
  decide

/-- CF-9, step 1. -/
theorem test_call : after (launch [0x2200]) (fun t => (t.sp, t.stack[1], t.pc)) = some (1, 0x202, 0x200) := by
  decide

/-- A slot of 16 bits keeps the largest return address whole (92 D21); one of 12 bits keeps its low 12, the model's choice
(log entry 18). -/
theorem test_call_slot_width :
    slotValue { defaultConfig with slotWidth := 12 } 0x1000 = 0 ∧ slotValue defaultConfig 0x1000 = 0x1000 := by decide

/-- CF-9, step 12. -/
theorem test_call_overflow :
    after { launch [0x2200] with sp := 11 } (fun t => (t.sp, t.stack[0], t.fault))
      = some (11, 0, some (.stackOverflow 0x200)) := by decide

/-- CF-3. -/
theorem test_seByte_equal : after ((launch [0x3310]).setV 3 0x10) (·.pc) = some 0x204 := by decide
/-- CF-4. -/
theorem test_seByte_differs : after ((launch [0x3310]).setV 3 0x11) (·.pc) = some 0x202 := by decide
/-- CF-5. -/
theorem test_sneByte_equal : after (launch [0x4000]) (·.pc) = some 0x202 := by decide
/-- CF-6. -/
theorem test_sneByte_differs : after ((launch [0x4000]).setV 0 1) (·.pc) = some 0x204 := by decide
/-- CF-7. -/
theorem test_seReg : after (((launch [0x5120]).setV 1 9).setV 2 9) (·.pc) = some 0x204 := by decide
/-- CF-8. -/
theorem test_sneReg : after (((launch [0x9120]).setV 1 1).setV 2 2) (·.pc) = some 0x204 := by decide
/-- CF-10. -/
theorem test_jpV0 : after ((launch [0xB300]).setV 0 0x10) (·.pc) = some 0x310 := by decide
/-- CF-11: the target is not masked. -/
theorem test_jpV0_largest : after ((launch [0xBFFF]).setV 0 0xFF) (·.pc) = some 0x10FE := by decide
/-- CF-12. -/
theorem test_sys : after (launch [0x0123]) (fun t => (t.pc, t.sp)) = some (0x202, 0) := by decide
/-- CF-13, step 2: an odd pc fetches 0x0100. -/
theorem test_odd_pc : after ((launch [0x1201, 0x0060]).setPc 0x201) (·.pc) = some 0x203 := by decide
/-- CF-15. -/
theorem test_fetch_out_of_range :
    after (((launch []).setPc 0xFFF).setDt 5) (fun t => (t.fault, t.dt)) = some (some (.fetchOutOfRange 0xFFF), 5) := by
  decide
/-- DU-1. -/
theorem test_unknown : after ((launch [0x8008]).setV 0 7) (fun t => (t.pc, t.getV 0)) = some (0x202, 7) := by
  decide

/-! ### Register loads and arithmetic (95_test_vectors AL) -/

/-- What two registers hold after a step on a launch with V[a] = p and V[b] = q. -/
def alu (w : Word) (a : Reg) (p : Byte) (b : Reg) (q : Byte) (rule : VfAlias := .sequential) : Option (Byte × Byte) :=
  after { ((launch [w]).setV a p).setV b q with cfg := { defaultConfig with vfAlias := rule } }
    (fun t => (t.getV a, t.getV 15))

/-- AL-1. -/
theorem test_ldByte : alu 0x6A42 10 0 1 0 = some (0x42, 0) := by decide
/-- AL-2. -/
theorem test_addByte_wraps : alu 0x7003 0 0xFE 1 0 = some (0x01, 0) := by decide
/-- AL-4. -/
theorem test_addByte_VF : alu 0x7F01 15 0xFF 1 0 = some (0, 0) := by decide
/-- AL-5. -/
theorem test_ldReg : alu 0x8010 0 0 1 0x33 = some (0x33, 0) := by decide
/-- AL-6: VF is not reset. -/
theorem test_orReg :
    after ((((launch [0x8011]).setV 0 0x0F).setV 1 0xF0).setV 15 0x55) (fun t => (t.getV 0, t.getV 15))
      = some (0xFF, 0x55) := by decide
/-- AL-7. -/
theorem test_andReg : alu 0x8012 0 0x3C 1 0x0F = some (0x0C, 0) := by decide
/-- AL-8. -/
theorem test_xorReg : alu 0x8013 0 0xFF 1 0x0F = some (0xF0, 0) := by decide
/-- AL-10. -/
theorem test_addReg : alu 0x8014 0 254 1 3 = some (1, 1) := by decide
/-- AL-15, both readings. -/
theorem test_addReg_VF :
    alu 0x8F14 15 200 1 100 = some (44, 44) ∧ alu 0x8F14 15 200 1 100 .operandsFirst = some (1, 1) := by
  decide
/-- AL-20: the flag is strict. -/
theorem test_subReg_equal : alu 0x8015 0 7 1 7 = some (0, 0) := by decide
/-- AL-21, both readings. -/
theorem test_subReg_VF :
    alu 0x8F15 15 9 1 4 = some (253, 253) ∧ alu 0x8F15 15 9 1 4 .operandsFirst = some (1, 1) := by decide
/-- AL-25: y is ignored. -/
theorem test_shr : alu 0x8346 3 1 4 0xFF = some (0, 1) := by decide
/-- AL-26, both readings. -/
theorem test_shr_VF : alu 0x8F06 15 3 1 0 = some (0, 0) ∧ alu 0x8F06 15 3 1 0 .operandsFirst = some (1, 1) := by
  decide
/-- AL-27. -/
theorem test_subnReg : alu 0x8017 0 2 1 10 = some (8, 1) := by decide
/-- AL-31, both readings: VF is the source. -/
theorem test_subnReg_VF :
    alu 0x80F7 0 3 15 1 = some (253, 0) ∧ alu 0x80F7 0 3 15 1 .operandsFirst = some (254, 0) := by decide
/-- AL-34. -/
theorem test_shl : alu 0x840E 4 0x80 1 0 = some (0, 1) := by decide
/-- AL-36, both readings. -/
theorem test_shl_VF : alu 0x8F0E 15 0x80 1 0 = some (2, 2) ∧ alu 0x8F0E 15 0x80 1 0 .operandsFirst = some (1, 1) := by
  decide
/-- AL-38. -/
theorem test_rnd : after (launch [0xC30F] 0 0xA7) (·.getV 3) = some 0x07 := by decide

/-! ### Index and memory transfer (95_test_vectors IM) -/

/-- IM-1. -/
theorem test_ldI : after (launch [0xA123]) (·.i) = some 0x123 := by decide
/-- IM-2: VF is unchanged past 0xFFF. -/
theorem test_addI :
    after ((((launch [0xF21E]).setI 0xFFE).setV 2 5).setV 15 0x33) (fun t => (t.i, t.getV 15)) = some (0x1003, 0x33) := by
  decide
/-- IM-3. -/
theorem test_addI_wraps : after (((launch [0xF21E]).setI 0xFFFF).setV 2 1) (·.i) = some 0 := by decide
/-- IM-4: no mask. -/
theorem test_ldF :
    after ((launch [0xF029]).setV 0 15) (·.i) = some 75 ∧ after ((launch [0xF029]).setV 0 255) (·.i) = some 0x4FB := by
  decide
/-- IM-7. -/
theorem test_ldB_top :
    after (((launch [0xF033]).setI 0xFFD).setV 0 123) (fun t => bytesAt t 0xFFD 3) = some [1, 2, 3] := by decide
/-- IM-6: no byte is written. -/
theorem test_ldB_beyond :
    after (((launch [0xF033]).setI 0xFFE).setV 0 123) (fun t => (t.fault, bytesAt t 0xFFE 2))
      = some (some (.memoryOutOfRange 0x1000), [0, 0]) := by decide
/-- IM-8. -/
theorem test_storeRegs :
    after (((((launch [0xF255]).setI 0x400).setV 0 1).setV 1 2).setV 2 3) (fun t => (bytesAt t 0x400 4, t.i))
      = some ([1, 2, 3, 0], 0x400) := by decide
/-- IM-9. -/
theorem test_storeRegs_beyond :
    after (((launch [0xFF55]).setI 0xFF1).setV 0 7) (fun t => (t.fault, bytesAt t 0xFF1 1))
      = some (some (.memoryOutOfRange 0x1000), [0]) := by decide
/-- IM-11: glyph 0. -/
theorem test_loadRegs :
    after (launch [0xF465]) (fun t => (t.firstRegs 5, t.i)) = some ([0xF0, 0x90, 0x90, 0x90, 0xF0, 0], 0) := by
  decide
/-- IM-12. -/
theorem test_loadRegs_all :
    after ((launch [0xFF65]).setI 0x200) (fun t => (t.getV 0, t.getV 1, t.getV 15)) = some (0xFF, 0x65, 0) := by
  decide

/-! ### Timers, keypad and wait (95_test_vectors TK) -/

/-- TK-2. -/
theorem test_ldVxDt : after ((launch [0xF007]).setDt 5) (fun t => (t.getV 0, t.dt)) = some (4, 4) := by decide
/-- TK-1, step 1. -/
theorem test_ldDt : after ((launch [0xF015]).setV 0 3) (·.dt) = some 3 := by decide
/-- TK-3. -/
theorem test_ldSt : after ((launch [0xF018]).setV 0 2) (fun t => (t.st, t.requestBeep)) = some (2, true) := by
  decide
/-- TK-4: 1 is ignored, after the tick. -/
theorem test_ldSt_one :
    after (((launch [0xF018]).setSt 10).setV 0 1) (fun t => (t.st, t.requestBeep)) = some (9, true) := by decide
/-- TK-7 and TK-8. -/
theorem test_skp :
    after ((launch [0xE29E] 0x0020).setV 2 5) (·.pc) = some 0x204
    ∧ after ((launch [0xE29E] 0x0010).setV 2 5) (·.pc) = some 0x202 := by decide
/-- TK-11. -/
theorem test_skp_key_16 :
    after ((launch [0xE29E]).setV 2 16) (·.fault) = some (some (.keyIndexOutOfRange 16)) := by decide
/-- TK-9 and TK-10. -/
theorem test_sknp :
    after ((launch [0xE2A1]).setV 2 5) (·.pc) = some 0x204
    ∧ after ((launch [0xE2A1] 0x0020).setV 2 5) (·.pc) = some 0x202 := by decide
/-- TK-12, step 1: the key of the FX0A step is not seen. -/
theorem test_ldVxK :
    after ((launch [0xF50A] 0x0080).setDt 3) (fun t => (t.wait, t.waitReg, t.dt, t.pc, t.getV 5))
      = some (true, 5, 2, 0x202, 0) := by decide
/-- TK-12, step 2: the lowest pressed key, and no tick. -/
theorem test_wait_scan :
    after (((launch [0xF50A] 0x0084).setDt 2).beginWait 5) (fun t => (t.getV 5, t.wait, t.dt)) = some (2, false, 2) := by
  decide
/-- TK-13: nothing pressed. -/
theorem test_wait_idle :
    after (((launch [0xF00A]).setDt 3).beginWait 0) (fun t => (t.wait, t.dt, t.pc)) = some (true, 3, 0x200) := by
  decide

/-! ### Display (95_test_vectors DR) -/

/-- DR-3 and DR-9, step 2. -/
theorem test_cls :
    after { launch [0x00E0] with fb := [(3, 4), (0, 31)] } (fun t => (t.fb.length, t.requestRedraw))
      = some (0, false) := by decide
/-- EX-7, step 1. -/
theorem test_drw_glyph :
    after (launch [0xD015]) (fun t => (t.fb, t.getV 15, t.requestRedraw))
      = some ([(0, 0), (1, 0), (2, 0), (3, 0), (0, 1), (3, 1), (0, 2), (3, 2), (0, 3), (3, 3)]
          ++ [(0, 4), (1, 4), (2, 4), (3, 4)], 0, true) := by decide
/-- DR-5, step 3: a collision, and a pixel erased. -/
theorem test_drw_collision :
    after { ((launch [0xD011]).setI 0x4B) with fb := [(0, 0), (5, 0)] } (fun t => (t.fb, t.getV 15))
      = some ([(1, 0), (2, 0), (3, 0), (5, 0)], 1) := by decide
/-- DR-4: both coordinates wrap. -/
theorem test_drw_wraps :
    after ((((launch [0xD011]).setV 0 67).setV 1 33).setI 0x4B) (·.fb) = some [(3, 1), (4, 1), (5, 1), (6, 1)] := by
  decide
/-- DR-6, both readings. -/
theorem test_drw_VF_coordinate :
    after (((launch [0xDF01]).setV 15 10).setI 0x4B) (fun t => (t.fb.head?, t.getV 15)) = some (some (0, 0), 0)
    ∧ after { ((launch [0xDF01]).setV 15 10).setI 0x4B with cfg := { defaultConfig with vfAlias := .operandsFirst } }
        (fun t => (t.fb.head?, t.getV 15)) = some (some (10, 0), 0) := by decide
/-- DR-7 and DR-8. -/
theorem test_drw_edge :
    after (((launch [0xD012]).setI 0xFFF).setV 15 9) (fun t => (t.fault, t.getV 15))
      = some (some (.memoryOutOfRange 0x1000), 9)
    ∧ after ((launch [0xD011]).setI 0xFFF) (fun t => (t.fault, t.pc)) = some (none, 0x202) := by decide

/-! ### Reset, load, report (95_test_vectors LD, EX-1, EX-2) -/

/-- LD-3 and EX-1. -/
theorem test_font : bytesAt State.reset 0 10 = [0xF0, 0x90, 0x90, 0x90, 0xF0, 0x20, 0x60, 0x20, 0x20, 0x70]
    ∧ bytesAt State.reset 75 6 = [0xF0, 0x80, 0xF0, 0x80, 0x80, 0] := by decide

/-- 70_reset R350: memory is zero before the glyphs are loaded. -/
theorem test_cleared : bytesAt State.cleared 0 5 = [0, 0, 0, 0, 0] := by decide +kernel

/-- P5's image starts with 60 03. -/
theorem test_boot :
    (match boot [0x60, 0x03] with
      | .ok t => bytesAt t 0x1FF 4 ++ bytesAt t 0 2
      | .error _ => []) = [0, 0x60, 0x03, 0, 0xF0, 0x90] := by decide +kernel

/-- 60_exceptions R302: reset clears a fault, and the parameters stay. -/
theorem test_applyReset :
    let s := applyReset { takeFault (launch [0x00EE]) (.stackUnderflow 0x200) with
      cfg := { defaultConfig with loose59 := true, width := 8 } }
    s.fault = none ∧ s.pc = 0x200 ∧ s.cfg.loose59 = true ∧ s.faultPort = (0, 0) := by decide

/-- 60_exceptions R301: the outcome of a fault stands in place of the output record; its code is 2. -/
theorem test_fault_report :
    after (launch [0x00EE]) (fun t => (t.report, t.faultPort))
      = some (.fault (.stackUnderflow 0x200), (2, 0x200)) := by decide

/-- `withFetchWord` places the word step runs next. -/
theorem test_withFetchWord :
    ((State.reset.withFetchWord 16 0x6A42).setPc 0x200).fault = none
    ∧ after { State.reset.withFetchWord 16 0x6A42 with inputs := [⟨0, 0⟩] } (·.getV 10) = some 0x42 := by
  decide

/-! ### Witnesses: for every statement with hypotheses, a state and operands that meet them all, with the boundary
values of its clauses -/

/-- A launch whose data accesses start at `a`. -/
def atI (a : Word) : State := (launch []).setI a

/-- A state other than reset that meets the invariant. -/
def drawn : State :=
  { ((launch [0xD015]).setPc 0x10FE).push 0x1000 with fb := [(63, 0), (0, 31)] }

theorem test_wit_DecodeInvertsEncode :
    Instr.wellFormed false (.sys 0xFFF) = true ∧ Instr.wellFormed true (.unknown 0xFF66) = true := by decide

theorem test_wit_UnknownWordsAreTheListedOnes :
    decode false 0x5001 = .unknown 0x5001 ∧ isUnknownWord false 0x5001 = true
    ∧ decode true 0x5001 ≠ .unknown 0x5001 ∧ isUnknownWord true 0x5001 = false := by decide

/-- Each clause, and the words on both sides of each condition. -/
theorem test_wit_LooseMatchingChangesOnlyItsWords :
    decode false 0x5FF1 = .unknown 0x5FF1 ∧ decode true 0x5FF1 = .seReg 15 15
    ∧ decode false 0x900F = .unknown 0x900F ∧ decode true 0x900F = .sneReg 0 0
    ∧ decode true 0x5FF0 = decode false 0x5FF0 ∧ decode true 0xA000 = decode false 0xA000 := by decide

theorem test_wit_DecodeBytesOfEncodedBytes :
    Instr.wellFormed false (.drw 1 2 3) = true
    ∧ decodeBytes false (encodeBytes (.drw 1 2 3) ++ [7]) = .ok (.drw 1 2 3, [7])
    ∧ ([0x12] : List Byte).length < 2 ∧ decodeBytes false [] = .error .truncated := by decide

/-- The last fetchable pc, with a word that the step runs. -/
theorem test_wit_StepRunsTheDecodedInstruction :
    ∃ s : State, s.fault = none ∧ s.wait = false ∧ s.pc.toNat + 1 = 0xFFF ∧
      decode s.cfg.loose59 (wordOfBytes (Memory.read s.mem s.pc.toNat) (Memory.read s.mem (s.pc.toNat + 1)))
        = .ldByte 10 0x42 :=
  ⟨((launch []).setPc 0xFFE).withFetchWord 16 0x6A42, by decide, by decide, by decide, by decide⟩

theorem test_wit_FetchBeyondMemoryIsRecorded :
    ∃ s : State, s.fault = none ∧ s.wait = false ∧ s.pc.toNat + 1 = 0x1000 :=
  ⟨(launch []).setPc 0xFFF, by decide, by decide, by decide⟩

theorem test_wit_FaultDiscardsTheWholeStep :
    ∃ s t f, step s = .next t ∧ t.fault = some f := ⟨launch [0x00EE], _, .stackUnderflow 0x200, rfl, by decide⟩

theorem test_wit_FaultedStateHasNoFurtherStep : (takeFault (launch []) (.stackUnderflow 0x200)).fault
    = some (.stackUnderflow 0x200) := by decide

theorem test_wit_EveryUnfaultedStateSteps : State.reset.fault = none := by decide

/-- A waiting state with the least key, the greatest key and no key pressed. -/
theorem test_wit_WaitingStepOnlyScans :
    ∃ s : BitVec 16 → State, (∀ ks, (s ks).fault = none ∧ (s ks).wait = true ∧ (s ks).nextInput.keys = ks) ∧
      keyDown (s 0x8001).nextInput.keys 0 = true ∧
      keyDown (s 0x8000).nextInput.keys 15 = true ∧
      (∀ j : Reg, j < 15 → keyDown (s 0x8000).nextInput.keys j.val = false) ∧
      ∀ k : Reg, keyDown (s 0).nextInput.keys k.val = false :=
  ⟨fun ks => (launch [] ks).beginWait 3, fun _ => ⟨rfl, rfl, rfl⟩, by decide, by decide, by decide, by decide⟩

/-- The first clause's state is that of `test_wit_StepRunsTheDecodedInstruction`; the second's waits. -/
theorem test_wit_TimersTickOnceBeforeTheInstruction :
    (launch [0x00EE]).fault = none ∧ (launch [0x00EE]).wait = false ∧ (launch [0x00EE]).pc.toNat + 1 ≤ 0xFFF ∧
      ∃ s t, s.wait = true ∧ step s = .next t :=
  ⟨by decide, by decide, by decide, (launch []).beginWait 3, _, by decide, rfl⟩

theorem test_wit_KeypadIsTheStepsSnapshot :
    ∃ s t inp rest, step s = .next t ∧ t.fault = none ∧ s.inputs = inp :: rest :=
  ⟨launch [0x6A42] 0x0020 7, _, ⟨0x0020, 7⟩, [], rfl, by decide, rfl⟩

/-- 30_encoding R86: the random byte a step holds is the one supplied to it. -/
theorem test_step_holds_its_input :
    after (launch [0x6A42] 0x0020 7) (fun t => (t.keys, t.rnd)) = some (0x0020, 7) := by decide

/-- DRW requests a redraw, CLS with `CLS_REDRAW` set too, and CLS without it does not. A step that faults requests none,
though the step before it did. -/
theorem test_wit_RedrawIsRequestedByItsOwnStep :
    after (launch [0xD010]) (fun t => (t.fault, t.requestRedraw)) = some (none, true)
    ∧ after { launch [0x00E0] with cfg := { defaultConfig with clsRedraw := true } }
        (fun t => (t.fault, t.requestRedraw)) = some (none, true)
    ∧ after (launch [0x00E0]) (fun t => (t.fault, t.requestRedraw)) = some (none, false)
    ∧ after ((launch [0x00EE]).setRedraw true) (fun t => (t.fault, t.requestRedraw))
        = some (some (.stackUnderflow 0x200), false) := by decide

/-- A self-jump at 0x200, and one at the last fetchable address. -/
theorem test_wit_EndOfRunStays_conditions :
    endConditions 0x200 (launch [0x1200]) = true
    ∧ endConditions 0xFFE (((launch []).setPc 0xFFE).withFetchWord 16 0x1FFE) = true := by decide

/-- A launch that meets the conditions is no end of a run: the first state after a step is. -/
theorem test_wit_EndOfRunStays_launch : ∃ t, endOfRun 0x200 (launch [0x1200]) 1 t :=
  ⟨_, by decide, rfl, by decide, fun m h0 h1 => by omega⟩

/-- A run of two steps that ends at 0x202: after its first step pc is still 0x200, where a wait has just ended. -/
theorem test_wit_EndOfRunStays : ∃ t, endOfRun 0x202 (((launch [0x6003, 0x1202] 1).setDt 7).beginWait 3) 2 t :=
  ⟨_, by decide, rfl, by decide, fun m h0 h1 => by
    obtain rfl : m = 1 := by omega
    decide⟩

/-- Boundary values: pc 0x10FE, a slot of 0x1000, pixels in two corners. -/
theorem test_wit_StepKeepsTheInvariant_boundary : drawn.Inv :=
  ⟨by decide +kernel, by decide, by decide, by decide, by decide, by decide⟩

theorem test_wit_StepKeepsTheInvariant : ∃ s t : State, s.Inv ∧ step s = .next t :=
  ⟨drawn.setPc 0x200, _, ⟨by decide +kernel, by decide, by decide, by decide, by decide, by decide⟩, rfl⟩

theorem test_wit_OnlyClsAndDrwChangePixels :
    ∃ i s t p, exec i s = .next t ∧ Fb.lit t.fb p ≠ Fb.lit s.fb p :=
  ⟨.drw 0 1 5, launch [], _, (0, 0), rfl, by decide⟩

theorem test_wit_OnlyBcdAndStoreChangeMemory :
    (∃ s t a, exec (.ldB 0) s = .next t ∧ Memory.read t.mem a ≠ Memory.read s.mem a)
    ∧ ∃ s t a, exec (.storeRegs 0) s = .next t ∧ Memory.read t.mem a ≠ Memory.read s.mem a :=
  ⟨⟨(atI 0xFFD).setV 0 7, _, 0xFFF, rfl, by decide⟩, ⟨(atI 0xFFF).setV 0 7, _, 0xFFF, rfl, by decide⟩⟩

/-- Each clause's change. -/
theorem test_wit_ControlStateHasItsOwnWriters :
    (∃ t, exec (.ldI 7) (launch []) = .next t ∧ t.i ≠ (launch []).i)
    ∧ (∃ t, exec (.call 7) (launch []) = .next t ∧ t.sp ≠ (launch []).sp ∧ t.stack[1] ≠ (launch []).stack[1])
    ∧ (∃ t, exec (.ldDt 0) ((launch []).setV 0 7) = .next t ∧ t.dt ≠ (launch []).dt)
    ∧ (∃ t, exec (.ldSt 0) ((launch []).setV 0 7) = .next t ∧ t.st ≠ (launch []).st)
    ∧ ∃ t, exec (.ldVxK 3) (launch []) = .next t ∧ t.wait ≠ (launch []).wait ∧ t.waitReg ≠ (launch []).waitReg :=
  ⟨⟨_, rfl, by decide⟩, ⟨_, rfl, by decide, by decide⟩, ⟨_, rfl, by decide⟩, ⟨_, rfl, by decide⟩,
   ⟨_, rfl, by decide, by decide⟩⟩

theorem test_wit_OnlyFlagWritersAndDestinationsChangeVF :
    (∃ t, exec (.addReg 0 0) ((launch []).setV 0 0x80) = .next t ∧ t.getV flagReg ≠ (launch []).getV flagReg)
    ∧ ∃ t, exec (.ldByte flagReg 7) (launch []) = .next t ∧ t.getV flagReg ≠ (launch []).getV flagReg :=
  ⟨⟨_, rfl, by decide⟩, ⟨_, rfl, by decide⟩⟩

/-- Each row of the fault table at the first value that faults, and the last value that does not. -/
theorem test_wit_FaultsAreExactlyTheTables :
    exec (.call 0x300) { launch [] with sp := 11 } = .fault (.stackOverflow 0x200)
    ∧ exec .ret (launch []) = .fault (.stackUnderflow 0x200)
    ∧ exec (.ldB 0) (atI 0xFFE) = .fault (.memoryOutOfRange 0x1000)
    ∧ exec (.storeRegs 15) (atI 0xFF1) = .fault (.memoryOutOfRange 0x1000)
    ∧ exec (.loadRegs 0) (atI 0x1234) = .fault (.memoryOutOfRange 0x1234)
    ∧ exec (.drw 0 0 2) (atI 0xFFF) = .fault (.memoryOutOfRange 0x1000)
    ∧ exec (.skp 0) ((launch []).setV 0 16) = .fault (.keyIndexOutOfRange 16)
    ∧ exec (.sknp 0) ((launch []).setV 0 255) = .fault (.keyIndexOutOfRange 255)
    ∧ (∃ t, exec (.call 0x300) { launch [] with sp := 10 } = .next t) ∧ (∃ t, exec .ret { launch [] with sp := 1 } = .next t)
    ∧ (∃ t, exec (.drw 0 0 1) (atI 0xFFF) = .next t) ∧ ∃ t, exec (.drw 0 0 0) (atI 0xFFFF) = .next t :=
  ⟨rfl, rfl, rfl, rfl, rfl, rfl, rfl, rfl, ⟨_, rfl⟩, ⟨_, rfl⟩, ⟨_, rfl⟩, ⟨_, rfl⟩⟩

theorem test_wit_OnlyRndReadsTheRandomByte :
    ∀ x kk, Instr.drw 0 1 5 ≠ .rnd x kk := by simp

theorem test_wit_OnlyKeySkipsReadTheKeypad :
    ∀ x, Instr.ldVxK 3 ≠ .skp x ∧ Instr.ldVxK 3 ≠ .sknp x := by simp

theorem test_wit_StepKeepsParametersAndSlotZero : ∃ t, step (launch [0x2300]) = .next t := ⟨_, rfl⟩

/-- The greatest stack pointer that pushes, and the one that faults. -/
theorem test_wit_CallPushesAndJumps :
    ({ launch [] with sp := 10 } : State).sp ≠ 11 ∧ ({ launch [] with sp := 11 } : State).sp = 11 := by decide

/-- The least stack pointer that pops, and the one that faults. -/
theorem test_wit_RetPopsAndJumps : ({ launch [] with sp := 1 } : State).sp ≠ 0 ∧ (launch []).sp = 0 := by decide

theorem test_wit_CallThenRetComesBack :
    ({ launch [] with sp := 10 } : State).sp ≠ 11 ∧ 16 ≤ ({ launch [] with sp := 10 } : State).cfg.slotWidth := by decide

/-- The four premises of the one clause. -/
theorem test_wit_CopyAndBitwiseWriteTheDestinationAlone :
    ∀ s : State, (Instr.xorReg 3 3, 3, s.getV 3 ^^^ s.getV 3) = (.xorReg 3 3, 3, s.getV 3 ^^^ s.getV 3)
      ∧ (Instr.ldReg 0 15, 0, s.getV 15) = (.ldReg 0 15, 0, s.getV 15) := fun _ => ⟨rfl, rfl⟩

/-- The last address three digits fit at, and the first they do not. -/
theorem test_wit_LdBStoresThreeDigits :
    dataAddr (atI 0xFFD) 0 + 2 = 0xFFF ∧ dataAddr (atI 0xFFE) 0 + 2 = 0x1000 := by decide

/-- The last address sixteen registers fit at, and the first they do not. -/
theorem test_wit_StoreRegsWritesV0ToVx :
    dataAddr (atI 0xFF0) 0 + (15 : Reg).val = 0xFFF ∧ dataAddr (atI 0xFF1) 0 + (15 : Reg).val = 0x1000 := by decide

/-- The last address one register fits at, and the first it does not. -/
theorem test_wit_LoadRegsReadsV0ToVx :
    dataAddr (atI 0xFFF) 0 + (0 : Reg).val = 0xFFF ∧ dataAddr (atI 0x1000) 0 + (0 : Reg).val = 0x1000 := by decide

/-- The loading state differs from the storing one in a register and in pc. -/
theorem test_wit_StoredRegistersLoadBack :
    ∃ s t u : State, exec (.storeRegs 2) s = .next t ∧ u.mem = t.mem ∧ u.i = t.i ∧ u.getV 1 ≠ s.getV 1 ∧ u.pc ≠ t.pc :=
  ⟨(atI 0x300).setV 1 7, _, (applyEffect (.jump 0x400)
      (((atI 0x300).setV 1 9).setMem (Memory.writeSeq (atI 0x300).mem 0x300 [0, 7, 0]))),
    rfl, by decide, by decide, by decide, by decide⟩

theorem test_wit_FetchSeesStoredBytes :
    ∃ s t u : State, ∃ x r q : Reg, exec (.storeRegs x) s = .next t ∧ u.mem = t.mem ∧ q ≤ x ∧ q.val = r.val + 1 ∧
      u.pc.toNat = s.i.toNat + r.val :=
  ⟨(atI 0x300).setV 1 7, _, ((launch []).setMem (Memory.writeSeq (atI 0x300).mem 0x300 [0, 7])).setPc 0x300,
    1, 0, 1, rfl, by decide, by decide, by decide, by decide⟩

/-- The greatest key there is, and the first value there is none for. -/
theorem test_wit_KeySkipsTestOneKey :
    (((launch []).setV 2 15).getV 2).toNat = 15 ∧ (((launch []).setV 2 16).getV 2).toNat = 16 := by decide

/-- A sprite of one row at the last address, one of no row beyond memory, one of two rows that does not fit, and the
smallest screen. -/
theorem test_wit_DrwXorsTheSprite :
    dataAddr (atI 0xFFF) 0 + (1 : Nibble).val - 1 = 0xFFF
    ∧ dataAddr (atI 0xFFF) 0 + (2 : Nibble).val - 1 = 0x1000
    ∧ 8 ≤ (atI 0xFFF).cfg.width ∧ 16 ≤ (atI 0xFFF).cfg.height
    ∧ 8 ≤ ({ defaultConfig with width := 8, height := 16 } : Config).width
    ∧ 16 ≤ ({ defaultConfig with width := 8, height := 16 } : Config).height := by decide

/-- Either premise about the coordinates. -/
theorem test_wit_DrawingTwiceRestoresTheScreen :
    ∃ s t : State, 8 ≤ s.cfg.width ∧ 16 ≤ s.cfg.height ∧ s.cfg.vfAlias = .sequential ∧ (0 : Reg) ≠ flagReg ∧
      exec (.drw 0 1 5) s = .next t := ⟨launch [], _, by decide, by decide, by decide, by decide, rfl⟩

/-- EX-2: the largest image that fits, and the smallest that does not. -/
theorem test_wit_LoadProgramBounds :
    0x200 + (List.replicate 3584 (0 : Byte)).length = 4096 ∧ 0x200 + (List.replicate 3585 (0 : Byte)).length = 4097 := by
  simp only [List.length_replicate, and_self]

theorem test_wit_BootIsResetWithTheImage : (List.replicate 3584 (0 : Byte)).length ≤ 3584 :=
  List.length_replicate.le
end Sys2Proof.Tests
end

section
/-! PROOFS. The decoder as the first matching row of the opcode map (30_encoding R74, R76, R87). A row's test by mask
and pattern is turned into a test of fields, which is what `decode` splits on. -/

namespace Sys2Proof

/-! ### A row's test as a test of fields -/

theorem opField_lt (w : Word) : opField w < 16 := Nat.mod_lt _ (by decide)

theorem nField_eq_zero_iff (w : Word) : nField w = 0 ↔ bits w 3 0 = 0 := by
  simp [nField, toNibble, Fin.ext_iff, bits]

/-- Every mask of the map keeps the family digit and some number `k` of the low bits. -/
theorem toNat_and_rowMask (w : Word) {k : Nat} (hk : k ≤ 12) :
    w.toNat &&& (15 * 2 ^ 12 + (2 ^ k - 1)) = opField w * 4096 + w.toNat % 2 ^ k := by
  have hlow : 2 ^ k - 1 < 2 ^ 12 :=
    (Nat.sub_lt (Nat.two_pow_pos k) Nat.one_pos).trans_le (Nat.pow_le_pow_right Nat.two_pos hk)
  have hmod : (w.toNat &&& (15 * 2 ^ 12 + (2 ^ k - 1))) % 2 ^ 12 = w.toNat % 2 ^ k := by
    rw [Nat.and_mod_two_pow, Nat.mul_add_mod_of_lt hlow, Nat.and_two_pow_sub_one_eq_mod,
      Nat.mod_mod_of_dvd _ (Nat.pow_dvd_pow 2 hk)]
  have hdiv : (w.toNat &&& (15 * 2 ^ 12 + (2 ^ k - 1))) / 2 ^ 12 = opField w := by
    have hmask : (15 * 2 ^ 12 + (2 ^ k - 1)) / 2 ^ 12 = 2 ^ 4 - 1 := by omega
    rw [Nat.and_div_two_pow, hmask, Nat.and_two_pow_sub_one_eq_mod, opField, bits]
  omega

/-- The test of a row whose mask keeps the low `k` bits: the family digit and those bits are the pattern's. -/
theorem and_rowMask_eq_iff (w : Word) {mask pattern : Word} {k : Nat} (hk : k ≤ 12)
    (hmask : mask.toNat = 15 * 2 ^ 12 + (2 ^ k - 1)) :
    w &&& mask = pattern ↔ opField w = pattern.toNat / 4096 ∧ w.toNat % 2 ^ k = pattern.toNat % 4096 := by
  have hlow : w.toNat % 2 ^ k < 4096 :=
    (Nat.mod_lt _ (Nat.two_pow_pos k)).trans_le (Nat.pow_le_pow_right Nat.two_pos hk)
  rw [← BitVec.toNat_inj, BitVec.toNat_and, hmask, toNat_and_rowMask w hk]
  omega

@[simp] theorem and_FFFF_eq_iff (w pattern : Word) :
    w &&& 0xFFFF#16 = pattern ↔ opField w = pattern.toNat / 4096 ∧ bits w 11 0 = pattern.toNat % 4096 := by
  simpa [bits] using and_rowMask_eq_iff w (k := 12) (mask := 0xFFFF) (by decide) rfl

@[simp] theorem and_F0FF_eq_iff (w pattern : Word) :
    w &&& 0xF0FF#16 = pattern ↔ opField w = pattern.toNat / 4096 ∧ bits w 7 0 = pattern.toNat % 4096 := by
  simpa [bits] using and_rowMask_eq_iff w (k := 8) (mask := 0xF0FF) (by decide) rfl

@[simp] theorem and_F00F_eq_iff (w pattern : Word) :
    w &&& 0xF00F#16 = pattern ↔ opField w = pattern.toNat / 4096 ∧ bits w 3 0 = pattern.toNat % 4096 := by
  simpa [bits] using and_rowMask_eq_iff w (k := 4) (mask := 0xF00F) (by decide) rfl

@[simp] theorem and_F000_eq_iff (w pattern : Word) :
    w &&& 0xF000#16 = pattern ↔ opField w = pattern.toNat / 4096 ∧ 0 = pattern.toNat % 4096 := by
  simpa [Nat.mod_one] using and_rowMask_eq_iff w (k := 0) (mask := 0xF000) (by decide) rfl

/-- The mask of rows 8 and 20 under either setting of `LOOSE_5_9` (30_encoding R76). -/
@[simp] theorem and_looseMask_eq_iff (loose : Bool) (w pattern : Word) :
    w &&& (if loose = true then 0xF000#16 else 0xF00F#16) = pattern ↔
      opField w = pattern.toNat / 4096 ∧ (if loose = true then 0 else bits w 3 0) = pattern.toNat % 4096 := by
  cases loose <;> simp

/-- The two fixed words of `decodeSystem`, tested by fields. -/
theorem eq_iff_fields (w pattern : Word) :
    w = pattern ↔ opField w = pattern.toNat / 4096 ∧ bits w 11 0 = pattern.toNat % 4096 := by
  rw [← and_FFFF_eq_iff]
  exact iff_of_eq (congrArg (· = pattern) BitVec.and_allOnes.symm)

/-! ### The search for the first matching row -/

/-- `decodeByMap` over any list of rows. -/
def firstMatch (rows : List OpcodeRow) (w : Word) : Instr :=
  match rows.find? (fun row => w &&& row.mask == row.pattern) with
  | some row => row.instr w
  | none => .unknown w

theorem decodeByMap_eq_firstMatch (loose : Bool) (w : Word) :
    decodeByMap loose w = firstMatch (opcodeMap loose) w := rfl

@[simp] theorem firstMatch_nil (w : Word) : firstMatch [] w = .unknown w := rfl

@[simp] theorem firstMatch_cons (row : OpcodeRow) (rows : List OpcodeRow) (w : Word) :
    firstMatch (row :: rows) w = if w &&& row.mask = row.pattern then row.instr w else firstMatch rows w := by
  by_cases h : w &&& row.mask = row.pattern <;> simp [firstMatch, h]

/-! ### Family by family -/

/-- Rows 1 to 3. -/
theorem decodeSystem_eq_firstMatch (loose : Bool) {w : Word} (h : opField w = 0x0) :
    decodeSystem w = firstMatch (opcodeMap loose) w := by
  simp only [decodeSystem, eq_iff_fields]
  simp [opcodeMap, h]

/-- Rows 11 to 19. -/
theorem decodeAlu_eq_firstMatch (loose : Bool) {w : Word} (h : opField w = 0x8) :
    decodeAlu w = firstMatch (opcodeMap loose) w := by
  unfold decodeAlu
  split <;> simp_all [opcodeMap]

/-- Rows 25 and 26. -/
theorem decodeKey_eq_firstMatch (loose : Bool) {w : Word} (h : opField w = 0xE) :
    decodeKey w = firstMatch (opcodeMap loose) w := by
  unfold decodeKey
  split <;> simp_all [opcodeMap]

/-- Rows 27 to 35. -/
theorem decodeMisc_eq_firstMatch (loose : Bool) {w : Word} (h : opField w = 0xF) :
    decodeMisc w = firstMatch (opcodeMap loose) w := by
  unfold decodeMisc
  split <;> simp_all [opcodeMap]

/-- The decoder splits on the family digit; the families it decodes in place have one row each, and in the two of
`LOOSE_5_9` the row's mask decides about n. -/
theorem decode_eq_decodeByMap (loose : Bool) (w : Word) : decode loose w = decodeByMap loose w := by
  rw [decodeByMap_eq_firstMatch, decode]
  split
  case h_1 h => exact decodeSystem_eq_firstMatch loose h
  case h_9 h => exact decodeAlu_eq_firstMatch loose h
  case h_15 h => exact decodeKey_eq_firstMatch loose h
  case h_16 =>
    have h : opField w = 0xF := by
      have := opField_lt w
      grind
    exact decodeMisc_eq_firstMatch loose h
  case h_6 h | h_10 h => cases loose <;> simp [opcodeMap, h, nField_eq_zero_iff]
  all_goals simp [opcodeMap, *]

/-- Settles O4: on every word the decoder and the search of the opcode map agree, family by family. -/
theorem decodeIsFirstMatchingRow : Obligations.DecodeIsFirstMatchingRow :=
  fun loose w => decode_eq_decodeByMap loose w

end Sys2Proof
end

section
/-! PROOFS. Jumps and skips (40_control_flow R102, R104 to R108): each ends in a pc effect and nothing else, so one
lemma per kind of effect says what it leaves. -/

namespace Sys2Proof.Machine

/-! ### The frame of a pc effect -/

theorem changesOnly_refl (may : Part → Prop) (s : State) : changesOnly may s s := fun p _ => by
  cases p <;> rfl

/-- A pc effect after other writes adds pc to what they change, and nothing else (30_encoding R90). -/
theorem changesOnly_applyEffect {may : Part → Prop} {s t : State} (hpc : may .pc) (h : changesOnly may s t)
    (e : PcEffect) : changesOnly may s (applyEffect e t) := fun p hp => by
  have hsame := h p hp
  cases p
  case pc => exact absurd hpc hp
  all_goals simpa [Part.same] using hsame

theorem applyEffect_changesOnly_pc (e : PcEffect) (s : State) : changesOnly (fun p => p = .pc) s (applyEffect e s) :=
  changesOnly_applyEffect (may := fun p => p = .pc) rfl (changesOnly_refl _ s) e

/-! ### Jumps -/

/-- An instruction that only jumps, to a target of 16 bits. -/
theorem endsNext_of_jump {i : Instr} {s : State} {a : Nat} (h : exec i s = finish (.jump a) s) (ha : a < 2 ^ 16) :
    endsNext i s (fun t => t.pc.toNat = a ∧ changesOnly (fun p => p = .pc) s t) :=
  ⟨_, h, (BitVec.toNat_ofNat a 16).trans (Nat.mod_eq_of_lt ha), applyEffect_changesOnly_pc _ s⟩

theorem exec_jp (nnn : Addr) (s : State) : exec (.jp nnn) s = finish (.jump nnn.toNat) s := rfl

theorem exec_jpV0 (nnn : Addr) (s : State) :
    exec (.jpV0 nnn) s = finish (.jump ((s.getV 0).toNat + nnn.toNat)) s := rfl

/-- Settles O30: a 12-bit target fits in pc. -/
theorem jpSetsPc : Obligations.JpSetsPc := fun s nnn =>
  have hfits : nnn.toNat < 2 ^ 16 := by omega
  ⟨wordNnn_toNat 0x1 nnn (by decide), endsNext_of_jump (exec_jp nnn s) hfits⟩

/-- Settles O31: a byte and a 12-bit address sum to at most 0x10FE, so pc holds the sum without wrapping. -/
theorem jpV0SetsPcToTheUnmaskedSum : Obligations.JpV0SetsPcToTheUnmaskedSum := fun s nnn =>
  have hfits : (s.getV 0).toNat + nnn.toNat < 2 ^ 16 := by omega
  ⟨wordNnn_toNat 0xB nnn (by decide), endsNext_of_jump (exec_jpV0 nnn s) hfits⟩

/-! ### Skips -/

/-- An instruction that only skips on a test `b`, which decides `P` (30_encoding R91). -/
theorem endsNext_of_skipIf {i : Instr} {s : State} {b : Bool} {P : Prop} [Decidable P]
    (h : exec i s = finish (skipIf b) s) (hb : b = true ↔ P) :
    endsNext i s (fun t =>
      t.pc = (if P then s.pc + 4 else s.pc + 2) ∧ changesOnly (fun p => p = .pc) s t) :=
  ⟨_, h, by simp only [applyEffect_skipIf_pc, hb], applyEffect_changesOnly_pc _ s⟩

theorem exec_seByte (x : Reg) (kk : Byte) (s : State) :
    exec (.seByte x kk) s = finish (skipIf (s.getV x == kk)) s := rfl

theorem exec_sneByte (x : Reg) (kk : Byte) (s : State) :
    exec (.sneByte x kk) s = finish (skipIf (s.getV x != kk)) s := rfl

theorem exec_seReg (x y : Reg) (s : State) :
    exec (.seReg x y) s = finish (skipIf (s.getV x == s.getV y)) s := rfl

theorem exec_sneReg (x y : Reg) (s : State) :
    exec (.sneReg x y) s = finish (skipIf (s.getV x != s.getV y)) s := rfl

/-- Settles O35: the test of each instruction decides its compare. -/
theorem skipsOnAByteCompare : Obligations.SkipsOnAByteCompare := fun s x kk =>
  ⟨wordXkk_toNat 0x3 x kk (by decide), wordXkk_toNat 0x4 x kk (by decide),
    endsNext_of_skipIf (exec_seByte x kk s) beq_iff_eq, endsNext_of_skipIf (exec_sneByte x kk s) bne_iff_ne⟩

/-- With `LOOSE_5_9` the low digit of a 5xyn word is ignored (30_encoding R76). -/
theorem decode_loose_5xyn (x y : Reg) (n : Nibble) : decode true (wordXyn 0x5 x y n) = .seReg x y := by
  simp [decode]

/-- With `LOOSE_5_9` the low digit of a 9xyn word is ignored (30_encoding R76). -/
theorem decode_loose_9xyn (x y : Reg) (n : Nibble) : decode true (wordXyn 0x9 x y n) = .sneReg x y := by
  simp [decode]

/-- Settles O36: as for a byte compare, with the loose words of both rows. -/
theorem skipsOnARegisterCompare : Obligations.SkipsOnARegisterCompare := fun s x y =>
  ⟨wordXyn_toNat 0x5 x y 0x0 (by decide), wordXyn_toNat 0x9 x y 0x0 (by decide),
    fun n => ⟨decode_loose_5xyn x y n, decode_loose_9xyn x y n⟩,
    endsNext_of_skipIf (exec_seReg x y s) beq_iff_eq, endsNext_of_skipIf (exec_sneReg x y s) bne_iff_ne⟩

end Sys2Proof.Machine
end

section
/-! PROOFS. Register loads and arithmetic (41_register_alu R132 to R139 and R141). Each instruction writes either one
register, or a result and VF through `writeFlagged`, and advances; one lemma per shape says what it leaves. -/

namespace Sys2Proof.Machine

/-! ### The frames of the two shapes -/

/-- A register write after other writes adds that register to what they change, and nothing else. -/
theorem changesOnly_setV {may : Part → Prop} {s t : State} {x : Reg} (hx : may (.reg x)) (h : changesOnly may s t)
    (b : Byte) : changesOnly may s (t.setV x b) := fun p hp => by
  have hsame := h p hp
  cases p
  case reg r =>
    have hne : r ≠ x := fun e => hp (e ▸ hx)
    simpa [Part.same, hne] using hsame
  all_goals simpa [Part.same] using hsame

/-- In either reading of `VF_ALIAS` the two writes change the destination and VF alone (41_register_alu R131). -/
theorem changesOnly_writeFlagged {may : Part → Prop} {s : State} {x : Reg} (hx : may (.reg x))
    (hf : may (.reg flagReg)) (flag : Bool) (result : State → Byte) :
    changesOnly may s (writeFlagged x flag result s) := by
  unfold writeFlagged
  split
  · exact changesOnly_setV hx (changesOnly_setV hf (changesOnly_refl may s) _) _
  · exact changesOnly_setV hf (changesOnly_setV hx (changesOnly_refl may s) _) _

/-- VF holds the flag in either reading when the destination is another register (41_register_alu R131). -/
theorem writeFlagged_getV_flagReg {x : Reg} (hx : x ≠ flagReg) (flag : Bool) (result : State → Byte) (s : State) :
    (writeFlagged x flag result s).getV flagReg = flagByte flag := by
  rw [writeFlagged_getV]
  split <;> simp [hx.symm]

/-! ### What an instruction of each shape leaves -/

/-- An instruction that writes one register and advances. -/
theorem endsNext_of_setV {i : Instr} {s : State} {x : Reg} {b : Byte} (h : exec i s = finish .advance (s.setV x b)) :
    endsNext i s (fun t => t.getV x = b ∧ t.pc = s.pc + 2 ∧ changesOnly (fun p => p = .pc ∨ p = .reg x) s t) :=
  ⟨_, h, by simp, rfl,
    changesOnly_applyEffect (.inl rfl) (changesOnly_setV (.inr rfl) (changesOnly_refl _ s) b) _⟩

/-- A flag-writing instruction. -/
theorem endsNext_of_writeFlagged {i : Instr} {s : State} {x : Reg} {flag : Bool} {result : State → Byte}
    (h : exec i s = finish .advance (writeFlagged x flag result s)) :
    endsNext i s (fun t =>
      t.getV x = (writeFlagged x flag result s).getV x ∧ (x ≠ flagReg → t.getV flagReg = flagByte flag) ∧
      t.pc = s.pc + 2 ∧ changesOnly (fun p => p = .pc ∨ p = .reg x ∨ p = .reg flagReg) s t) :=
  ⟨_, h, applyEffect_getV _ _ x,
    fun hx => (applyEffect_getV _ _ flagReg).trans (writeFlagged_getV_flagReg hx flag result s),
    by simp,
    changesOnly_applyEffect (.inl rfl) (changesOnly_writeFlagged (.inr (.inl rfl)) (.inr (.inr rfl)) flag result) _⟩

/-! ### Loads, copies and the operations without a flag -/

theorem exec_ldByte (x : Reg) (kk : Byte) (s : State) : exec (.ldByte x kk) s = finish .advance (s.setV x kk) := rfl

theorem exec_addByte (x : Reg) (kk : Byte) (s : State) :
    exec (.addByte x kk) s = finish .advance (s.setV x (s.getV x + kk)) := rfl

theorem exec_ldReg (x y : Reg) (s : State) : exec (.ldReg x y) s = finish .advance (s.setV x (s.getV y)) := rfl

theorem exec_orReg (x y : Reg) (s : State) :
    exec (.orReg x y) s = finish .advance (s.setV x (s.getV x ||| s.getV y)) := rfl

theorem exec_andReg (x y : Reg) (s : State) :
    exec (.andReg x y) s = finish .advance (s.setV x (s.getV x &&& s.getV y)) := rfl

theorem exec_xorReg (x y : Reg) (s : State) :
    exec (.xorReg x y) s = finish .advance (s.setV x (s.getV x ^^^ s.getV y)) := rfl

/-- Settles O37: both are one register write, and the sum of two bytes is taken modulo 256. -/
theorem byteImmediatesLoadAndAdd : Obligations.ByteImmediatesLoadAndAdd := fun s x kk => by
  obtain ⟨t, hexec, hx, hpc, hframe⟩ := endsNext_of_setV (exec_addByte x kk s)
  have hsum : (t.getV x).toNat = ((s.getV x).toNat + kk.toNat) % 256 := hx ▸ BitVec.toNat_add _ _
  exact ⟨wordXkk_toNat 0x6 x kk (by decide), wordXkk_toNat 0x7 x kk (by decide),
    endsNext_of_setV (exec_ldByte x kk s), t, hexec, hsum, hpc, hframe⟩

/-- Settles O38: each of the four is one write of the destination. -/
theorem copyAndBitwiseWriteTheDestinationAlone : Obligations.CopyAndBitwiseWriteTheDestinationAlone := by
  intro s x y i n r h
  simp only [Prod.mk.injEq] at h
  obtain ⟨rfl, rfl, rfl⟩ | ⟨rfl, rfl, rfl⟩ | ⟨rfl, rfl, rfl⟩ | ⟨rfl, rfl, rfl⟩ := h
  · exact ⟨wordXyn_toNat 0x8 x y 0x0 (by decide), endsNext_of_setV (exec_ldReg x y s)⟩
  · exact ⟨wordXyn_toNat 0x8 x y 0x1 (by decide), endsNext_of_setV (exec_orReg x y s)⟩
  · exact ⟨wordXyn_toNat 0x8 x y 0x2 (by decide), endsNext_of_setV (exec_andReg x y s)⟩
  · exact ⟨wordXyn_toNat 0x8 x y 0x3 (by decide), endsNext_of_setV (exec_xorReg x y s)⟩

/-! ### ADD Vx,Vy -/

theorem exec_addReg (x y : Reg) (s : State) :
    exec (.addReg x y) s =
      finish .advance (writeFlagged x (carryFlag (s.getV x) (s.getV y)) (fun _ => s.getV x + s.getV y) s) := rfl

/-- The words 8xyn with the digit n beside the family digit. -/
theorem word8xyn_toNat (x y : Reg) (n : Nibble) :
    (wordXyn 0x8 x y n).toNat = 0x8000 + n.val + x.val * 256 + y.val * 16 := by
  rw [wordXyn_toNat 0x8 x y n (by decide)]
  omega

/-- The carry as a number (41_register_alu R138). -/
theorem flagByte_carryFlag_toNat (a b : Byte) :
    (flagByte (carryFlag a b)).toNat = if a.toNat + b.toNat > 255 then 1 else 0 := by
  simp only [flagByte_toNat, carryFlag, decide_eq_true_eq]

/-- A result that no write of the instruction can alter stands in the destination, but for the later flag of the
OperandsFirst reading with VF as the destination (41_register_alu R131). -/
theorem writeFlagged_const_getV (x : Reg) (flag : Bool) (r : Byte) (s : State) :
    (writeFlagged x flag (fun _ => r) s).getV x =
      if x = flagReg ∧ s.cfg.vfAlias = .operandsFirst then flagByte flag else r := by
  rw [writeFlagged_getV]
  cases s.cfg.vfAlias <;> simp

/-- Settles O39: the sum is read before either write, so only the order of the two writes tells the readings
apart. -/
theorem addSetsSumAndCarry : Obligations.AddSetsSumAndCarry := by
  intro s x y sum carry
  have hcarry : (flagByte (carryFlag (s.getV x) (s.getV y))).toNat = carry := flagByte_carryFlag_toNat _ _
  have hsum : (s.getV x + s.getV y).toNat = sum % 256 := BitVec.toNat_add _ _
  obtain ⟨t, hexec, hx, hflag, hpc, hframe⟩ := endsNext_of_writeFlagged (exec_addReg x y s)
  refine ⟨word8xyn_toNat x y 0x4, t, hexec, ?_, fun hne => ?_, hpc, hframe⟩
  · rw [hx, writeFlagged_const_getV, apply_ite BitVec.toNat, hcarry, hsum]
  · rw [hflag hne, hcarry]

/-! ### SUB and SUBN -/

theorem exec_subReg (x y : Reg) (s : State) :
    exec (.subReg x y) s = finish .advance
      (writeFlagged x (greaterFlag (s.getV x) (s.getV y)) (fun t => t.getV x - t.getV y) s) := rfl

theorem exec_subnReg (x y : Reg) (s : State) :
    exec (.subnReg x y) s = finish .advance
      (writeFlagged x (greaterFlag (s.getV y) (s.getV x)) (fun t => t.getV y - t.getV x) s) := rfl

/-- The strict flag as a byte (41_register_alu R139, R141). -/
theorem flagByte_greaterFlag (a b : Byte) : flagByte (greaterFlag a b) = if a.toNat > b.toNat then 1 else 0 := by
  simp only [flagByte, greaterFlag, decide_eq_true_eq]

/-- An instruction that writes the difference Va - Vb to Vx with the strict flag. In the Sequential reading the
operands are read after the flag is written, so VF as an operand is the flag. -/
theorem endsNext_of_difference {i : Instr} {s : State} {x a b : Reg} {f : Byte}
    (h : exec i s = finish .advance
      (writeFlagged x (greaterFlag (s.getV a) (s.getV b)) (fun t => t.getV a - t.getV b) s))
    (hf : flagByte (greaterFlag (s.getV a) (s.getV b)) = f) :
    endsNext i s (fun t =>
      t.getV x = (match s.cfg.vfAlias with
        | .sequential => (if a = flagReg then f else s.getV a) - (if b = flagReg then f else s.getV b)
        | .operandsFirst => if x = flagReg then f else s.getV a - s.getV b) ∧
      (x ≠ flagReg → t.getV flagReg = f) ∧
      t.pc = s.pc + 2 ∧ changesOnly (fun p => p = .pc ∨ p = .reg x ∨ p = .reg flagReg) s t) := by
  obtain ⟨t, hexec, hx, hflag, hpc, hframe⟩ := endsNext_of_writeFlagged h
  refine ⟨t, hexec, ?_, fun hne => (hflag hne).trans hf, hpc, hframe⟩
  rw [hx, writeFlagged_getV, hf]
  cases s.cfg.vfAlias <;> simp

/-- Settles O40: the difference is Vx - Vy. -/
theorem subSetsDifferenceAndStrictFlag : Obligations.SubSetsDifferenceAndStrictFlag := fun s x y =>
  ⟨word8xyn_toNat x y 0x5, endsNext_of_difference (exec_subReg x y s) (flagByte_greaterFlag _ _)⟩

/-- Settles O41: the difference is Vy - Vx. -/
theorem subnSetsReverseDifferenceAndStrictFlag : Obligations.SubnSetsReverseDifferenceAndStrictFlag := fun s x y =>
  ⟨word8xyn_toNat x y 0x7, endsNext_of_difference (exec_subnReg x y s) (flagByte_greaterFlag _ _)⟩

end Sys2Proof.Machine
end

section
/-! PROOFS. The two loads of I (42_index_memory R170, R172): each is one write of I, and both values fit its 16
bits. -/

namespace Sys2Proof.Machine

/-- A write of I after other writes adds the index to what they change, and nothing else. -/
theorem changesOnly_setI {may : Part → Prop} {s t : State} (hi : may .index) (h : changesOnly may s t) (a : Word) :
    changesOnly may s (t.setI a) := fun p hp => by
  have hsame := h p hp
  cases p
  case index => exact absurd hi hp
  all_goals simpa [Part.same] using hsame

/-- An instruction that writes I, with a value known as a number, and advances. -/
theorem endsNext_of_setI {i : Instr} {s : State} {a : Word} {n : Nat} (h : exec i s = finish .advance (s.setI a))
    (ha : a.toNat = n) :
    endsNext i s (fun t => t.i.toNat = n ∧ t.pc = s.pc + 2 ∧ changesOnly (fun p => p = .pc ∨ p = .index) s t) :=
  ⟨_, h, by rw [applyEffect_i, State.setI_i, ha], rfl,
    changesOnly_applyEffect (.inl rfl) (changesOnly_setI (.inr rfl) (changesOnly_refl _ s) a) _⟩

theorem exec_ldI (nnn : Addr) (s : State) : exec (.ldI nnn) s = finish .advance (s.setI (zextAddr nnn)) := rfl

theorem exec_ldF (x : Reg) (s : State) : exec (.ldF x) s = finish .advance (s.setI (glyphAddr (s.getV x))) := rfl

/-- A 12-bit address keeps its value in I (42_index_memory R170). -/
@[simp] theorem zextAddr_toNat (nnn : Addr) : (zextAddr nnn).toNat = nnn.toNat :=
  BitVec.toNat_setWidth_of_le (by decide)

/-- The glyph address of a byte is at most 1275, so it needs no truncation (42_index_memory R172). -/
@[simp] theorem glyphAddr_toNat (b : Byte) : (glyphAddr b).toNat = b.toNat * 5 := by
  have hfits : b.toNat * 5 < 2 ^ 16 := by omega
  rw [glyphAddr, BitVec.toNat_ofNat, Nat.mod_eq_of_lt hfits]

/-- The words Fxkk with the low byte beside the family digit. -/
theorem wordFxkk_toNat (x : Reg) (kk : Byte) : (wordXkk 0xF x kk).toNat = 0xF000 + kk.toNat + x.val * 256 := by
  rw [wordXkk_toNat 0xF x kk (by decide)]
  omega

/-- Settles O44: each is one write of I, with a value that fits its 16 bits. -/
theorem ldIAndLdFSetTheIndex : Obligations.LdIAndLdFSetTheIndex := fun s nnn x =>
  ⟨wordNnn_toNat 0xA nnn (by decide), wordFxkk_toNat x 0x29,
    endsNext_of_setI (exec_ldI nnn s) (zextAddr_toNat nnn),
    endsNext_of_setI (exec_ldF x s) (glyphAddr_toNat (s.getV x))⟩

end Sys2Proof.Machine
end

section
/-! PROOFS. The timers (43_timers_keypad R200, R202 to R204): the tick before the instruction, and the three
instructions that read or set a timer. -/

namespace Sys2Proof.Machine

/-! ### The frames of the timer writes, the tick and the latch -/

/-- A write of DT after other writes adds the delay timer to what they change, and nothing else. -/
theorem changesOnly_setDt {may : Part → Prop} {s t : State} (hdt : may .delayTimer) (h : changesOnly may s t)
    (b : Byte) : changesOnly may s (t.setDt b) := fun p hp => by
  have hsame := h p hp
  cases p
  case delayTimer => exact absurd hdt hp
  all_goals simpa [Part.same] using hsame

/-- A write of ST after other writes adds the sound timer to what they change, and nothing else. -/
theorem changesOnly_setSt {may : Part → Prop} {s t : State} (hst : may .soundTimer) (h : changesOnly may s t)
    (b : Byte) : changesOnly may s (t.setSt b) := fun p hp => by
  have hsame := h p hp
  cases p
  case soundTimer => exact absurd hst hp
  all_goals simpa [Part.same] using hsame

/-- The tick is a write of each timer. -/
theorem timerTick_eq_setSt_setDt (s : State) : timerTick s = (s.setDt (tickDown s.dt)).setSt (tickDown s.st) := rfl

/-- The start of a step latches its input and clears the redraw mark (30_encoding R86). -/
theorem changesOnly_beginStep {may : Part → Prop} (hkeys : may .keys) (hrnd : may .rnd) (hinputs : may .inputs)
    (hcount : may .inputCount) (hredraw : may .redraw) (s : State) : changesOnly may s s.beginStep := fun p hp => by
  cases p
  case keys => exact absurd hkeys hp
  case rnd => exact absurd hrnd hp
  case inputs => exact absurd hinputs hp
  case inputCount => exact absurd hcount hp
  case redraw => exact absurd hredraw hp
  all_goals rfl

/-! ### The tick before the instruction -/

/-- What the instruction of a step runs on: the state the step began in, latched and ticked. -/
theorem changesOnly_ticked (s : State) :
    changesOnly (fun p => p = .soundTimer ∨ p = .delayTimer ∨ p = .keys ∨ p = .rnd ∨ p = .inputs ∨
      p = .inputCount ∨ p = .redraw) s (timerTick s.beginStep) := by
  rw [timerTick_eq_setSt_setDt]
  refine changesOnly_setSt ?_ (changesOnly_setDt ?_ (changesOnly_beginStep ?_ ?_ ?_ ?_ ?_ s) _) _ <;> simp

/-- The wait scan touches no timer (43_timers_keypad R208). -/
theorem waitScan_timers (s : State) : (waitScan s).st = s.st ∧ (waitScan s).dt = s.dt := by
  obtain ⟨k, -, hscan⟩ | ⟨-, hscan⟩ := waitScan_cases s
  · rw [hscan]
    exact ⟨s.endWait_st k, s.endWait_dt k⟩
  · rw [hscan]
    exact ⟨rfl, rfl⟩

/-- A step that begins waiting does not tick (43_timers_keypad R200). -/
theorem step_waiting_keeps_timers {s t : State} (hw : s.wait = true) (h : step s = .next t) :
    t.st = s.st ∧ t.dt = s.dt := by
  obtain ⟨-, ⟨-, rfl⟩ | ⟨hnot, -⟩ | ⟨hnot, -⟩⟩ := step_cases h
  · exact waitScan_timers s.beginStep
  · simp [hw] at hnot
  · simp [hw] at hnot

/-- Settles O15: the instruction runs on the latched and ticked state, and a waiting step scans instead of
ticking. -/
theorem timersTickOnceBeforeTheInstruction : Obligations.TimersTickOnceBeforeTheInstruction :=
  ⟨fun s hf hw hp => ⟨timerTick s.beginStep, tickDown_toNat s.st, tickDown_toNat s.dt, rfl, rfl,
    changesOnly_ticked s, step_fetchable hf hw hp⟩,
   fun _ _ hw h => step_waiting_keeps_timers hw h⟩

/-! ### The instructions that read or set a timer -/

/-- An instruction that writes DT and advances. -/
theorem endsNext_of_setDt {i : Instr} {s : State} {b : Byte} (h : exec i s = finish .advance (s.setDt b)) :
    endsNext i s (fun t => t.dt = b ∧ t.pc = s.pc + 2 ∧ changesOnly (fun p => p = .pc ∨ p = .delayTimer) s t) :=
  ⟨_, h, by simp, rfl,
    changesOnly_applyEffect (.inl rfl) (changesOnly_setDt (.inr rfl) (changesOnly_refl _ s) b) _⟩

/-- An instruction that writes ST and advances. -/
theorem endsNext_of_setSt {i : Instr} {s : State} {b : Byte} (h : exec i s = finish .advance (s.setSt b)) :
    endsNext i s (fun t => t.st = b ∧ t.pc = s.pc + 2 ∧ changesOnly (fun p => p = .pc ∨ p = .soundTimer) s t) :=
  ⟨_, h, by simp, rfl,
    changesOnly_applyEffect (.inl rfl) (changesOnly_setSt (.inr rfl) (changesOnly_refl _ s) b) _⟩

theorem exec_ldVxDt (x : Reg) (s : State) : exec (.ldVxDt x) s = finish .advance (s.setV x s.dt) := rfl

theorem exec_ldDt (x : Reg) (s : State) : exec (.ldDt x) s = finish .advance (s.setDt (s.getV x)) := rfl

/-- A value below 2 leaves ST as it stands, which is a write of ST's own value (43_timers_keypad R204). -/
theorem exec_ldSt (x : Reg) (s : State) :
    exec (.ldSt x) s = finish .advance (s.setSt (if (s.getV x).toNat ≥ 2 then s.getV x else s.st)) := by
  simp only [exec, execLdSt]
  split <;> rfl

/-- Settles O51: each of the three is one write, of Vx, DT or ST. -/
theorem timerInstructionsReadAndSet : Obligations.TimerInstructionsReadAndSet := fun s x =>
  ⟨wordFxkk_toNat x 0x07, wordFxkk_toNat x 0x15, wordFxkk_toNat x 0x18,
    endsNext_of_setV (exec_ldVxDt x s), endsNext_of_setDt (exec_ldDt x s), endsNext_of_setSt (exec_ldSt x s)⟩

end Sys2Proof.Machine
end

section
/-! PROOFS. The program load (70_reset R352): a test of the image's end against memory, then one run of writes. -/

namespace Sys2Proof.Machine

/-! ### The frame of a run of writes to memory -/

/-- A run of writes after other changes adds the bytes it covers to them, and nothing else (20_memory R61). -/
theorem changesOnly_setMem_writeSeq {may : Part → Prop} {s t : State} {a : Nat} {bs : List Byte}
    (hbytes : ∀ k, k < bs.length → may (.byte (a + k))) (h : changesOnly may s t) :
    changesOnly may s (t.setMem (Memory.writeSeq t.mem a bs)) := fun p hp => by
  have hsame := h p hp
  cases p
  case byte q =>
    have houtside : ¬ (a ≤ q ∧ q < a + bs.length) := fun ⟨hle, hlt⟩ =>
      hp (Nat.add_sub_cancel' hle ▸ hbytes (q - a) (by omega))
    simp only [Part.same, State.setMem_mem, Memory.read_writeSeq, dif_neg houtside]
    exact hsame
  all_goals simpa [Part.same] using hsame

/-- Each byte of a run of writes reads back at its place (20_memory R61). -/
theorem Memory.read_writeSeq_add (bs : List Byte) (mem : List Host.Cell) (a k : Nat) (h : k < bs.length) :
    Memory.read (Memory.writeSeq mem a bs) (a + k) = bs[k] := by
  rw [Memory.read_writeSeq, dif_pos ⟨Nat.le_add_right a k, Nat.add_lt_add_left h a⟩]
  simp only [Nat.add_sub_cancel_left]

/-! ### The two answers of the load -/

theorem loadProgram_tooLarge {image : List Byte} (h : progBase + image.length > memSize) (s : State) :
    loadProgram image s = .error .programTooLarge := if_pos h

theorem loadProgram_fits {image : List Byte} (h : ¬ progBase + image.length > memSize) (s : State) :
    loadProgram image s = .ok (s.setMem (Memory.writeSeq s.mem progBase image)) := if_neg h

/-- Settles O58: the load refuses by the bound alone, and otherwise is one run of writes from 0x200. -/
theorem loadProgramBounds : Obligations.LoadProgramBounds := fun image s => by
  split
  · next hlarge => exact loadProgram_tooLarge hlarge s
  · next hfits =>
    exact ⟨_, loadProgram_fits hfits s, Memory.read_writeSeq_add image s.mem progBase,
      changesOnly_setMem_writeSeq (fun k hk => ⟨k, hk, rfl⟩) (changesOnly_refl _ s)⟩

end Sys2Proof.Machine
end

section
/-! PROOFS. The decoder against the encoder and against the list of unknown words (30_encoding R70, R74 to R77): every
fact is proved on the fields of a word, one family of words at a time. -/

namespace Sys2Proof

/-! ### A word is its fields -/

theorem opField_eq_div (w : Word) : opField w = w.toNat / 4096 := by
  simp only [opField, bits]
  omega

theorem bits_low_nibble (w : Word) : bits w 3 0 = w.toNat % 16 := by simp [bits]

theorem bits_low_byte (w : Word) : bits w 7 0 = w.toNat % 256 := by simp [bits]

theorem xField_val (w : Word) : (xField w).val = bits w 11 8 := Nat.mod_eq_of_lt (Nat.mod_lt _ (by decide))

theorem yField_val (w : Word) : (yField w).val = bits w 7 4 := Nat.mod_eq_of_lt (Nat.mod_lt _ (by decide))

theorem nField_val (w : Word) : (nField w).val = bits w 3 0 := Nat.mod_eq_of_lt (Nat.mod_lt _ (by decide))

theorem wordNnn_fields {w : Word} {op : Nat} (h : opField w = op) : wordNnn op (nnnField w) = w := by
  subst h
  apply BitVec.eq_of_toNat_eq
  rw [wordNnn_toNat _ _ (opField_lt w)]
  simp only [opField, nnnField, bits, BitVec.toNat_ofNat]
  omega

theorem wordXkk_fields {w : Word} {op : Nat} (h : opField w = op) : wordXkk op (xField w) (kkField w) = w := by
  subst h
  apply BitVec.eq_of_toNat_eq
  rw [wordXkk_toNat _ _ _ (opField_lt w), xField_val]
  simp only [opField, kkField, bits, BitVec.toNat_ofNat]
  omega

theorem wordXyn_fields {w : Word} {op : Nat} (h : opField w = op) :
    wordXyn op (xField w) (yField w) (nField w) = w := by
  subst h
  apply BitVec.eq_of_toNat_eq
  rw [wordXyn_toNat _ _ _ _ (opField_lt w), xField_val, yField_val, nField_val]
  simp only [opField, bits]
  omega

/-- A word whose row fixes the low byte (formats `x` of 30_encoding R72). -/
theorem wordXkk_of_low_byte {w : Word} {op : Nat} {kk : Byte} (h : opField w = op) (hkk : bits w 7 0 = kk.toNat) :
    wordXkk op (xField w) kk = w := by
  have : kkField w = kk := by rw [kkField, hkk, BitVec.ofNat_toNat, BitVec.setWidth_eq]
  exact this ▸ wordXkk_fields h

/-- A word whose row fixes the low digit (formats `xy` of 30_encoding R72). -/
theorem wordXyn_of_low_nibble {w : Word} {op : Nat} {n : Nibble} (h : opField w = op) (hn : bits w 3 0 = n.val) :
    wordXyn op (xField w) (yField w) n = w := by
  have : nField w = n := Fin.ext ((nField_val w).trans hn)
  exact this ▸ wordXyn_fields h

/-! ### The unknown words -/

theorem isUnknownWord_iff (loose : Bool) (w : Word) :
    isUnknownWord loose w = true ↔
      (opField w = 5 ∧ bits w 3 0 ≠ 0 ∧ loose = false) ∨
      (opField w = 8 ∧ bits w 3 0 ∈ [8, 9, 0xA, 0xB, 0xC, 0xD, 0xF]) ∨
      (opField w = 9 ∧ bits w 3 0 ≠ 0 ∧ loose = false) ∨
      (opField w = 0xE ∧ bits w 7 0 ∉ [0x9E, 0xA1]) ∨
      (opField w = 0xF ∧ bits w 7 0 ∉ [0x07, 0x0A, 0x15, 0x18, 0x1E, 0x29, 0x33, 0x55, 0x65]) := by
  rw [isUnknownWord, opField_eq_div, bits_low_nibble, bits_low_byte]
  simp [and_assoc, or_assoc]

theorem decodeSystem_ne_unknown (w w' : Word) : decodeSystem w ≠ .unknown w' := by
  unfold decodeSystem
  split
  · simp
  · split <;> simp

theorem decodeAlu_eq_unknown_iff (w : Word) :
    decodeAlu w = .unknown w ↔ bits w 3 0 ∈ [8, 9, 0xA, 0xB, 0xC, 0xD, 0xF] := by
  have hlt : bits w 3 0 < 16 := Nat.mod_lt _ (by decide)
  unfold decodeAlu
  split
  case h_10 =>
    simp only [List.mem_cons, List.not_mem_nil, or_false, true_iff]
    grind
  all_goals simp [*]

theorem decodeKey_eq_unknown_iff (w : Word) : decodeKey w = .unknown w ↔ bits w 7 0 ∉ [0x9E, 0xA1] := by
  unfold decodeKey
  split <;> simp_all

theorem decodeMisc_eq_unknown_iff (w : Word) :
    decodeMisc w = .unknown w ↔ bits w 7 0 ∉ [0x07, 0x0A, 0x15, 0x18, 0x1E, 0x29, 0x33, 0x55, 0x65] := by
  unfold decodeMisc
  split <;> simp_all

/-- The families of 30_encoding R75 are those the decoder leaves a word over in. -/
theorem decode_eq_unknown_iff (loose : Bool) (w : Word) :
    decode loose w = .unknown w ↔ isUnknownWord loose w = true := by
  rw [isUnknownWord_iff, decode]
  split
  case h_1 h => simp [h, decodeSystem_ne_unknown]
  case h_6 h | h_10 h => cases loose <;> simp [h, nField_eq_zero_iff]
  case h_9 h => simp [h, decodeAlu_eq_unknown_iff]
  case h_15 h => simp [h, decodeKey_eq_unknown_iff]
  case h_16 =>
    have h : opField w = 0xF := by
      have := opField_lt w
      grind
    simp [h, decodeMisc_eq_unknown_iff]
  all_goals simp [*]

/-! ### Encoding what a word decodes to -/

theorem encode_decodeSystem {w : Word} (h : opField w = 0x0) : encode (decodeSystem w) = w := by
  unfold decodeSystem
  split
  · next hw => exact hw.symm
  · split
    · next hw => exact hw.symm
    · exact wordNnn_fields h

theorem encode_decodeAlu {w : Word} (h : opField w = 0x8) : encode (decodeAlu w) = w := by
  unfold decodeAlu
  split
  case h_10 => rfl
  all_goals exact wordXyn_of_low_nibble h ‹_›

theorem encode_decodeKey {w : Word} (h : opField w = 0xE) : encode (decodeKey w) = w := by
  unfold decodeKey
  split
  case h_3 => rfl
  all_goals exact wordXkk_of_low_byte h ‹_›

theorem encode_decodeMisc {w : Word} (h : opField w = 0xF) : encode (decodeMisc w) = w := by
  unfold decodeMisc
  split
  case h_10 => rfl
  all_goals exact wordXkk_of_low_byte h ‹_›

/-- With exact matching each family keeps every field its words have (30_encoding R74). -/
theorem encode_decode_strict (w : Word) : encode (decode false w) = w := by
  unfold decode
  split
  case h_1 h => exact encode_decodeSystem h
  case h_6 h | h_10 h =>
    split
    · next hn => exact wordXyn_of_low_nibble h ((nField_eq_zero_iff w).mp (by simpa using hn))
    · rfl
  case h_9 h => exact encode_decodeAlu h
  case h_14 h => exact wordXyn_fields h
  case h_15 h => exact encode_decodeKey h
  case h_16 =>
    have h : opField w = 0xF := by
      have := opField_lt w
      grind
    exact encode_decodeMisc h
  case h_2 h | h_3 h | h_11 h | h_12 h => exact wordNnn_fields h
  all_goals exact wordXkk_fields ‹_›

/-- Settles O2: each family's fields make up the word again. -/
theorem encodeInvertsStrictDecode : Obligations.EncodeInvertsStrictDecode := encode_decode_strict

/-! ### Decoding the word of an instruction -/

/-- A system word decodes to SYS unless it is one of the two fixed words (30_encoding R74). -/
theorem decode_encode_sys (loose : Bool) {nnn : Addr} (h : Instr.wellFormed loose (.sys nnn) = true) :
    decode loose (encode (.sys nnn)) = .sys nnn := by
  simp only [Instr.wellFormed, Bool.and_eq_true, bne_iff_ne] at h
  obtain ⟨hcls, hret⟩ := h
  have hne : ∀ c : Addr, nnn ≠ c → wordNnn 0 nnn ≠ wordNnn 0 c := fun c hc he =>
    hc (by rw [← nnnField_wordNnn 0 nnn (by decide), he, nnnField_wordNnn 0 c (by decide)])
  have hsys : decodeSystem (wordNnn 0 nnn) = .sys (nnnField (wordNnn 0 nnn)) :=
    (if_neg (hne 0x0E0 hcls)).trans (if_neg (hne 0x0EE hret))
  simp [encode, decode, hsys]

theorem decode_encode (loose : Bool) (i : Instr) (h : i.wellFormed loose = true) : decode loose (encode i) = i := by
  cases i
  case cls | ret => decide +revert
  case sys nnn => exact decode_encode_sys loose h
  case unknown w => exact (decode_eq_unknown_iff loose w).mpr h
  all_goals simp [encode, decode, decodeAlu, decodeKey, decodeMisc]

/-- Settles O1: the fields of an assembled word are the instruction's, and the two kinds of term that need not stand for
a word are the well-formedness condition's. -/
theorem decodeInvertsEncode : Obligations.DecodeInvertsEncode := decode_encode

/-! ### Loose matching -/

/-- `LOOSE_5_9` is read for the 5xyn and 9xyn words with n other than 0 alone (30_encoding R76). -/
theorem decode_loose_eq_strict {w : Word} (h5 : ¬ (opField w = 5 ∧ bits w 3 0 ≠ 0))
    (h9 : ¬ (opField w = 9 ∧ bits w 3 0 ≠ 0)) : decode true w = decode false w := by
  unfold decode
  split
  case h_6 h =>
    have hn : bits w 3 0 = 0 := not_not.mp fun hne => h5 ⟨h, hne⟩
    simp [nField_eq_zero_iff, hn]
  case h_10 h =>
    have hn : bits w 3 0 = 0 := not_not.mp fun hne => h9 ⟨h, hne⟩
    simp [nField_eq_zero_iff, hn]
  all_goals rfl

/-- Settles O6: the words named are unknown ones without the parameter, and its rows' with it. -/
theorem looseMatchingChangesOnlyItsWords : Obligations.LooseMatchingChangesOnlyItsWords := by
  intro w
  rw [← opField_eq_div, ← bits_low_nibble]
  split
  · next h => exact ⟨(decode_eq_unknown_iff false w).mpr ((isUnknownWord_iff false w).mpr (by simp [h])),
      by simp [decode, h]⟩
  · next h5 =>
    split
    · next h => exact ⟨(decode_eq_unknown_iff false w).mpr ((isUnknownWord_iff false w).mpr (by simp [h])),
        by simp [decode, h]⟩
    · next h9 => exact decode_loose_eq_strict h5 h9

/-! ### What decode gives is well formed -/

theorem decode_loose_cases (loose : Bool) (w : Word) :
    decode loose w = decode false w ∨ decode loose w = .seReg (xField w) (yField w) ∨
      decode loose w = .sneReg (xField w) (yField w) := by
  cases loose
  case false => exact .inl rfl
  case true =>
    by_cases h5 : opField w = 5 ∧ bits w 3 0 ≠ 0
    · exact .inr (.inl (by simp [decode, h5]))
    by_cases h9 : opField w = 9 ∧ bits w 3 0 ≠ 0
    · exact .inr (.inr (by simp [decode, h9]))
    exact .inl (decode_loose_eq_strict h5 h9)

/-- The strict instruction keeps its word, so an unknown one is on the list and SYS is none of the two fixed words. -/
theorem decode_wellFormed (loose : Bool) (w : Word) : (decode loose w).wellFormed loose = true := by
  obtain h | h | h := decode_loose_cases loose w
  · have hword := encode_decode_strict w
    cases hi : decode false w
    case sys nnn =>
      rw [hi] at hword
      have hfixed : ∀ c : Addr, nnn = c → decode false (encode (.sys c)) = .sys c := fun c hc => by
        rw [← hc, hword, hi]
      rw [h, hi, Instr.wellFormed, Bool.and_eq_true, bne_iff_ne, bne_iff_ne]
      exact ⟨fun hc => absurd (hfixed _ hc) (by decide), fun hc => absurd (hfixed _ hc) (by decide)⟩
    case unknown w' =>
      obtain rfl : w' = w := by rw [← hword, hi, encode]
      rw [h, hi]
      exact (decode_eq_unknown_iff loose w').mp (h.trans hi)
    all_goals rw [h, hi, Instr.wellFormed]
  · rw [h, Instr.wellFormed]
  · rw [h, Instr.wellFormed]

/-- Settles O3: decode is total, and its unknown words are the listed ones. -/
theorem decodedInstructionIsWellFormed : Obligations.DecodedInstructionIsWellFormed := decode_wellFormed

/-! ### Bytes and written-out words -/

theorem decodeBytes_encodeBytes (loose : Bool) (i : Instr) (rest : List Byte) :
    decodeBytes loose (encodeBytes i ++ rest) = .ok (decode loose (encode i), rest) := by
  simp [encodeBytes, decodeBytes]

/-- Settles O7: the two bytes make up the word, and a shorter string has no first two. -/
theorem decodeBytesOfEncodedBytes : Obligations.DecodeBytesOfEncodedBytes := by
  refine ⟨fun loose i rest h => by rw [decodeBytes_encodeBytes, decode_encode loose i h], fun loose bs h => ?_⟩
  match bs, h with
  | [], _ | [_], _ => rfl

/-- Settles O8: each word is decoded as the map writes it out. -/
theorem writtenOutWordsDecode : Obligations.WrittenOutWordsDecode := by
  unfold Obligations.WrittenOutWordsDecode
  decide

/-! ### Counting the unknown words -/

/-- Whether the exact list names the words with first digit `op` and low byte `kk`; the digit `x` does not matter. -/
def unknownFamily (op kk : Nat) : Bool :=
  isUnknownWord false (BitVec.ofNat 16 (op * 4096 + kk))

theorem isUnknownWord_ofNat {op x kk : Nat} (hop : op < 16) (hx : x < 16) (hkk : kk < 256) :
    isUnknownWord false (BitVec.ofNat 16 (op * 4096 + (x * 256 + kk))) = unknownFamily op kk := by
  rw [unknownFamily, Bool.eq_iff_iff, isUnknownWord_iff, isUnknownWord_iff]
  simp only [opField, bits_ofNat _ _ _ (show op * 4096 + (x * 256 + kk) < 65536 by omega),
    bits_ofNat _ _ _ (show op * 4096 + kk < 65536 by omega)]
  have h1 : (op * 4096 + (x * 256 + kk)) / 2 ^ 12 % 2 ^ (15 - 12 + 1) = op := by omega
  have h2 : (op * 4096 + kk) / 2 ^ 12 % 2 ^ (15 - 12 + 1) = op := by omega
  have h3 : (op * 4096 + (x * 256 + kk)) / 2 ^ 0 % 2 ^ (3 - 0 + 1) = (op * 4096 + kk) / 2 ^ 0 % 2 ^ (3 - 0 + 1) := by
    omega
  have h4 : (op * 4096 + (x * 256 + kk)) / 2 ^ 0 % 2 ^ (7 - 0 + 1) = (op * 4096 + kk) / 2 ^ 0 % 2 ^ (7 - 0 + 1) := by
    omega
  rw [h1, h2, h3, h4]

/-- Counting over `m` blocks of `b` numbers, block by block. -/
theorem countP_range_mul (p : Nat → Bool) (m b : Nat) :
    (List.range (m * b)).countP p = ∑ k ∈ Finset.range m, (List.range b).countP fun j => p (k * b + j) := by
  induction m with
  | zero => simp
  | succ m ih =>
    rw [Nat.succ_mul, List.range_add, List.countP_append, ih, Finset.sum_range_succ, List.countP_map]
    rfl

/-- Every block of 256 words of one first digit holds as many unknown words. -/
theorem countP_unknown_of_digit {op : Nat} (hop : op < 16) :
    ((List.range (16 * 256)).countP fun j => isUnknownWord false (BitVec.ofNat 16 (op * 4096 + j))) =
      16 * (List.range 256).countP (unknownFamily op) := by
  rw [countP_range_mul, Finset.sum_congr rfl (g := fun _ => (List.range 256).countP (unknownFamily op))]
  · rw [Finset.sum_const, Finset.card_range, smul_eq_mul]
  · intro x hx
    refine List.countP_congr fun kk hkk => ?_
    rw [isUnknownWord_ofNat hop (Finset.mem_range.mp hx) (List.mem_range.mp hkk)]

/-- 240 low bytes for each of the digits 5 and 9, 112 for 8, 254 for E and 247 for F. -/
theorem sum_countP_unknownFamily : ∑ op ∈ Finset.range 16, (List.range 256).countP (unknownFamily op) = 1093 := by
  decide +kernel

theorem length_filter_isUnknownWord :
    ((List.range 65536).filter (fun k => isUnknownWord false (BitVec.ofNat 16 k))).length = 17488 := by
  calc ((List.range 65536).filter (fun k => isUnknownWord false (BitVec.ofNat 16 k))).length
      = (List.range (16 * 4096)).countP fun k => isUnknownWord false (BitVec.ofNat 16 k) :=
        List.countP_eq_length_filter.symm
    _ = ∑ op ∈ Finset.range 16, 16 * (List.range 256).countP (unknownFamily op) := by
        rw [countP_range_mul]
        exact Finset.sum_congr rfl fun op hop => countP_unknown_of_digit (Finset.mem_range.mp hop)
    _ = 17488 := by simp only [← Finset.mul_sum, sum_countP_unknownFamily, Nat.reduceMul]

/-- Settles O5: the families left over by the decoder are those of the list, and the count is that of the low bytes,
sixteen times. -/
theorem unknownWordsAreTheListedOnes : Obligations.UnknownWordsAreTheListedOnes :=
  ⟨decode_eq_unknown_iff, length_filter_isUnknownWord⟩

end Sys2Proof
end

section
/-! PROOFS. `exec` in one form for every instruction: the fault it raises, or else its writes and its pc effect
(30_encoding R88, R90). Every rule about all instructions is proved from this form, one case per instruction. -/

namespace Sys2Proof.Machine

/-! ### The parts of an instruction's meaning -/

/-- The fault of a data access to `count` bytes from I (20_memory R55, 60_exceptions R300). -/
def rangeFault (s : State) (count : Nat) : Option Fault :=
  if count = 0 ∨ dataAddr s 0 + count ≤ memSize then none else some (.memoryOutOfRange (max (dataAddr s 0) memSize))

/-- The fault of SKP and SKNP (43_timers_keypad R205, R206). -/
def keyFault (s : State) (x : Reg) : Option Fault :=
  if (s.getV x).toNat > 15 then some (.keyIndexOutOfRange (s.getV x)) else none

/-- The fault an instruction raises, if it does (60_exceptions R300). -/
def faultOf (i : Instr) (s : State) : Option Fault :=
  match i with
  | .ret => if s.sp = 0 then some (.stackUnderflow s.pc) else none
  | .call _ => if s.sp = 11 then some (.stackOverflow s.pc) else none
  | .drw _ _ n => rangeFault s n.val
  | .skp x | .sknp x => keyFault s x
  | .ldB _ => rangeFault s 3
  | .storeRegs x | .loadRegs x => rangeFault s (x.val + 1)
  | _ => none

/-- The effect an instruction returns (30_encoding R90, R91). -/
def effectOf (i : Instr) (s : State) : PcEffect :=
  match i with
  | .ret => .jump s.top.toNat
  | .jp nnn | .call nnn => .jump nnn.toNat
  | .jpV0 nnn => .jump (offsetTarget s nnn)
  | .seByte x kk => skipIf (s.getV x == kk)
  | .sneByte x kk => skipIf (s.getV x != kk)
  | .seReg x y => skipIf (s.getV x == s.getV y)
  | .sneReg x y => skipIf (s.getV x != s.getV y)
  | .skp x => skipIf (keyDown s.keys (s.getV x).toNat)
  | .sknp x => skipIf (!keyDown s.keys (s.getV x).toNat)
  | _ => .advance

/-- The `count` bytes from I upward. -/
def State.bytesAtI (s : State) (count : Nat) : List Byte :=
  (List.range count).map fun k => Memory.read s.mem (dataAddr s 0 + k)

/-- The framebuffer and the collision after DRW Vx,Vy,n (44_display R232). -/
def State.drawn (s : State) (x y : Reg) (n : Nibble) : List (Nat × Nat) × Bool :=
  drawRows s.cfg ((coordState s).getV x).toNat ((coordState s).getV y).toNat 0 (s.bytesAtI n.val) (s.fb, false)

/-- The state an instruction that raises no fault leaves, its pc effect apart. -/
def writesOf (i : Instr) (s : State) : State :=
  match i with
  | .cls => (s.setFb []).setRedraw (s.redraw || s.cfg.clsRedraw)
  | .ret => s.drop
  | .call _ => s.push (s.pc + 2)
  | .ldByte x kk => s.setV x kk
  | .addByte x kk => s.setV x (s.getV x + kk)
  | .ldReg x y => s.setV x (s.getV y)
  | .orReg x y => s.setV x (s.getV x ||| s.getV y)
  | .andReg x y => s.setV x (s.getV x &&& s.getV y)
  | .xorReg x y => s.setV x (s.getV x ^^^ s.getV y)
  | .addReg x y => writeFlagged x (carryFlag (s.getV x) (s.getV y)) (fun _ => s.getV x + s.getV y) s
  | .subReg x y => writeFlagged x (greaterFlag (s.getV x) (s.getV y)) (fun t => t.getV x - t.getV y) s
  | .shr x _ => writeFlagged x (lowBit (s.getV x)) (fun t => t.getV x >>> 1) s
  | .subnReg x y => writeFlagged x (greaterFlag (s.getV y) (s.getV x)) (fun t => t.getV y - t.getV x) s
  | .shl x _ => writeFlagged x (highBit (s.getV x)) (fun t => t.getV x <<< 1) s
  | .ldI nnn => s.setI (zextAddr nnn)
  | .rnd x kk => s.setV x (s.rnd &&& kk)
  | .drw x y n => ((s.setFb (s.drawn x y n).1).setV flagReg (flagByte (s.drawn x y n).2)).setRedraw true
  | .ldVxDt x => s.setV x s.dt
  | .ldVxK x => s.beginWait x
  | .ldDt x => s.setDt (s.getV x)
  | .ldSt x => s.setSt (if (s.getV x).toNat ≥ 2 then s.getV x else s.st)
  | .addI x => s.setI (s.i + (s.getV x).setWidth 16)
  | .ldF x => s.setI (glyphAddr (s.getV x))
  | .ldB x => s.setMem (Memory.writeSeq s.mem (dataAddr s 0) (bcdDigits (s.getV x)))
  | .storeRegs x => s.setMem (Memory.writeSeq s.mem (dataAddr s 0) (s.firstRegs x))
  | .loadRegs x => State.putRegs 0 (s.bytesAtI (x.val + 1)) s
  | .sys _ | .jp _ | .jpV0 _ | .seByte _ _ | .sneByte _ _ | .seReg _ _ | .sneReg _ _ | .skp _ | .sknp _
  | .unknown _ => s

/-! ### The one form -/

theorem memWriteSeq_dataAddr (bs : List Byte) (s : State) :
    memWriteSeq (dataAddr s 0) bs s =
      (rangeFault s bs.length).elim (.ok (s.setMem (Memory.writeSeq s.mem (dataAddr s 0) bs))) .error := by
  rw [memWriteSeq_eq, rangeFault]
  simp only [List.length_eq_zero_iff]
  split <;> rfl

theorem memReadSeq_dataAddr (count : Nat) (s : State) :
    memReadSeq (dataAddr s 0) count s = (rangeFault s count).elim (.ok (s.bytesAtI count)) .error := by
  rw [memReadSeq_eq, rangeFault]
  split <;> rfl

/-- Without `CLS_REDRAW` the redraw mark keeps its value (44_display R231). -/
theorem exec_cls (s : State) :
    exec .cls s = finish .advance ((s.setFb []).setRedraw (s.redraw || s.cfg.clsRedraw)) := by
  simp only [exec, execCls]
  cases s.cfg.clsRedraw
  case false =>
    rw [Bool.or_false]
    rfl
  case true =>
    rw [Bool.or_true]
    rfl

/-- Every instruction raises its fault, or writes and then applies its effect. -/
theorem exec_eq (i : Instr) (s : State) :
    exec i s = (faultOf i s).elim (finish (effectOf i s) (writesOf i s)) .fault := by
  cases i
  case cls => exact exec_cls s
  case ldSt x => exact exec_ldSt x s
  case ret =>
    simp only [exec, execRet, faultOf]
    split <;> rfl
  case call nnn =>
    simp only [exec, execCall, faultOf]
    split <;> rfl
  case skp x =>
    simp only [exec, execSkp, faultOf, keyFault]
    split <;> rfl
  case sknp x =>
    simp only [exec, execSknp, faultOf, keyFault]
    split <;> rfl
  case ldB x =>
    simp only [exec, execLdB, memWriteSeq_dataAddr, bcdDigits_length, faultOf]
    cases rangeFault s 3 <;> rfl
  case storeRegs x =>
    simp only [exec, execStoreRegs, memWriteSeq_dataAddr, State.firstRegs_length, faultOf]
    cases rangeFault s (x.val + 1) <;> rfl
  case loadRegs x =>
    simp only [exec, execLoadRegs, memReadSeq_dataAddr, faultOf]
    cases rangeFault s (x.val + 1) <;> rfl
  case drw x y n =>
    simp only [exec, execDrw, memReadSeq_dataAddr, faultOf]
    cases rangeFault s n.val <;> rfl
  all_goals rfl

theorem exec_eq_fault_iff {i : Instr} {s : State} {f : Fault} : exec i s = .fault f ↔ faultOf i s = some f := by
  rw [exec_eq]
  cases faultOf i s <;> simp [finish]

theorem exec_ne_refused (i : Instr) (s : State) (r : Refusal) : exec i s ≠ .refused r := by
  rw [exec_eq]
  cases faultOf i s <;> simp [finish]

theorem exec_of_noFault {i : Instr} {s : State} (h : faultOf i s = none) :
    exec i s = .next (applyEffect (effectOf i s) (writesOf i s)) := by
  rw [exec_eq, h]
  rfl

theorem exec_next {i : Instr} {s t : State} (h : exec i s = .next t) :
    faultOf i s = none ∧ t = applyEffect (effectOf i s) (writesOf i s) := by
  rw [exec_eq] at h
  cases hf : faultOf i s with
  | some f => simp [hf] at h
  | none =>
    rw [hf] at h
    injection h with h
    exact ⟨rfl, h.symm⟩

/-- What an instruction that raises no fault ends in. -/
theorem endsNext_of_noFault {i : Instr} {s : State} {post : State → Prop} (h : faultOf i s = none)
    (hpost : post (applyEffect (effectOf i s) (writesOf i s))) : endsNext i s post :=
  ⟨_, exec_of_noFault h, hpost⟩

/-! ### The faults -/

theorem rangeFault_eq_none_iff {s : State} {count : Nat} :
    rangeFault s count = none ↔ count = 0 ∨ s.i.toNat + count ≤ memSize := by
  unfold rangeFault
  split <;> simp_all [dataAddr]

theorem rangeFault_eq_some_iff {s : State} {count : Nat} {f : Fault} :
    rangeFault s count = some f ↔
      1 ≤ count ∧ s.i.toNat + count - 1 > 0xFFF ∧ f = .memoryOutOfRange (max s.i.toNat 0x1000) := by
  unfold rangeFault
  split
  · next h =>
    simp only [reduceCtorEq, false_iff]
    rintro ⟨hcount, hend, -⟩
    simp only [dataAddr, memSize] at h
    omega
  · next h =>
    simp only [dataAddr, memSize, Nat.add_zero, Option.some.injEq] at h ⊢
    have hbounds : 1 ≤ count ∧ s.i.toNat + count - 1 > 0xFFF := by omega
    simp only [hbounds, true_and, eq_comm]

theorem keyFault_eq_none_iff {s : State} {x : Reg} : keyFault s x = none ↔ (s.getV x).toNat ≤ 15 := by
  simp [keyFault]

theorem keyFault_eq_some_iff {s : State} {x : Reg} {f : Fault} :
    keyFault s x = some f ↔ (s.getV x).toNat > 15 ∧ f = .keyIndexOutOfRange (s.getV x) := by
  simp [keyFault, eq_comm]

/-- Settles O25: a row of the table for each instruction that can fault, and no other instruction faults. -/
theorem faultsAreExactlyTheTables : Obligations.FaultsAreExactlyTheTables := by
  refine fun i s => ⟨exec_ne_refused i s, fun f => ?_⟩
  rw [exec_eq_fault_iff]
  cases i
  case drw x y n => simp [faultOf, rangeFault_eq_some_iff]
  case ldB x | storeRegs x | loadRegs x => simp [faultOf, rangeFault_eq_some_iff]
  case skp x | sknp x => simp [faultOf, keyFault_eq_some_iff]
  case ret | call nnn => simp [faultOf, eq_comm]
  all_goals simp [faultOf]

/-! ### The frame of every instruction -/

/-- A write of the framebuffer after other writes adds pixels to what they change, and nothing else. -/
theorem changesOnly_setFb {may : Part → Prop} {s t : State} (hpixel : ∀ q, may (.pixel q)) (h : changesOnly may s t)
    (fb : List (Nat × Nat)) : changesOnly may s (t.setFb fb) := fun p hp => by
  have hsame := h p hp
  cases p
  case pixel q => exact absurd (hpixel q) hp
  all_goals simpa [Part.same] using hsame

/-- A write of the redraw mark after other writes adds it to what they change, and nothing else. -/
theorem changesOnly_setRedraw {may : Part → Prop} {s t : State} (hredraw : may .redraw) (h : changesOnly may s t)
    (b : Bool) : changesOnly may s (t.setRedraw b) := fun p hp => by
  have hsame := h p hp
  cases p
  case redraw => exact absurd hredraw hp
  all_goals simpa [Part.same] using hsame

/-- A push changes the stack pointer and the slot above the one it named (10_state R24). -/
theorem changesOnly_push {may : Part → Prop} {s : State} (hsp : may .sp) (hslot : may (.slot (s.sp + 1))) (a : Word) :
    changesOnly may s (s.push a) := fun p hp => by
  cases p
  case sp => exact absurd hsp hp
  case slot j =>
    have hne : (s.sp + 1).val ≠ j.val := fun e => hp (Fin.ext e ▸ hslot)
    simp [Part.same, hne]
  all_goals rfl

/-- A pop changes the stack pointer alone (10_state R24). -/
theorem changesOnly_drop {may : Part → Prop} (hsp : may .sp) (s : State) : changesOnly may s s.drop := fun p hp => by
  cases p
  case sp => exact absurd hsp hp
  all_goals rfl

/-- Entering the wait changes its flag and its register (43_timers_keypad R207). -/
theorem changesOnly_beginWait {may : Part → Prop} (hwait : may .wait) (hreg : may .waitReg) (s : State) (x : Reg) :
    changesOnly may s (s.beginWait x) := fun p hp => by
  cases p
  case wait => exact absurd hwait hp
  case waitReg => exact absurd hreg hp
  all_goals rfl

/-- A run of register writes changes the registers it covers (42_index_memory R175). -/
theorem changesOnly_putRegs {may : Part → Prop} (s : State) {bs : List Byte} (hfits : bs.length ≤ 16)
    (hreg : ∀ r : Reg, r.val < bs.length → may (.reg r)) : changesOnly may s (State.putRegs 0 bs s) := fun p hp => by
  cases p
  case reg r =>
    have houtside : ¬ (0 ≤ r.val ∧ r.val < 0 + bs.length) := fun ⟨_, hlt⟩ => hp (hreg r (by omega))
    exact (State.putRegs_getV bs 0 s r (by omega)).trans (dif_neg houtside)
  all_goals simp [Part.same]

/-- The parts besides pc that an instruction may change, which its rule names. -/
def mayWrite (i : Instr) (s : State) (p : Part) : Prop :=
  match i with
  | .cls => p = .redraw ∨ ∃ q, p = .pixel q
  | .ret => p = .sp
  | .call _ => p = .sp ∨ p = .slot (s.sp + 1)
  | .ldByte x _ | .addByte x _ | .ldReg x _ | .orReg x _ | .andReg x _ | .xorReg x _ | .rnd x _
  | .ldVxDt x => p = .reg x
  | .addReg x _ | .subReg x _ | .shr x _ | .subnReg x _ | .shl x _ => p = .reg x ∨ p = .reg flagReg
  | .ldI _ | .addI _ | .ldF _ => p = .index
  | .drw _ _ _ => p = .redraw ∨ p = .reg flagReg ∨ ∃ q, p = .pixel q
  | .ldVxK _ => p = .wait ∨ p = .waitReg
  | .ldDt _ => p = .delayTimer
  | .ldSt _ => p = .soundTimer
  | .ldB _ => ∃ k, k < 3 ∧ p = .byte (dataAddr s 0 + k)
  | .storeRegs x => ∃ r : Reg, r ≤ x ∧ p = .byte (dataAddr s 0 + r.val)
  | .loadRegs x => ∃ r : Reg, r ≤ x ∧ p = .reg r
  | .sys _ | .jp _ | .jpV0 _ | .seByte _ _ | .sneByte _ _ | .seReg _ _ | .sneReg _ _ | .skp _ | .sknp _
  | .unknown _ => False

/-- The writes of an instruction change no part but those its rule names. -/
theorem writesOf_changesOnly (i : Instr) (s : State) : changesOnly (mayWrite i s) s (writesOf i s) := by
  have hs : changesOnly (mayWrite i s) s s := changesOnly_refl _ s
  cases i
  case cls =>
    exact changesOnly_setRedraw (.inl rfl) (changesOnly_setFb (fun q => .inr ⟨q, rfl⟩) hs []) _
  case ret => exact changesOnly_drop (may := mayWrite .ret s) rfl s
  case call nnn => exact changesOnly_push (.inl rfl) (.inr rfl) _
  case addReg | subReg | shr | subnReg | shl => exact changesOnly_writeFlagged (.inl rfl) (.inr rfl) _ _
  case ldI | addI | ldF => exact changesOnly_setI (by exact rfl) hs _
  case drw x y n =>
    exact changesOnly_setRedraw (.inl rfl) (changesOnly_setV (.inr (.inl rfl))
      (changesOnly_setFb (fun q => .inr (.inr ⟨q, rfl⟩)) hs _) _) true
  case ldVxK x => exact changesOnly_beginWait (.inl rfl) (.inr rfl) s x
  case ldDt x => exact changesOnly_setDt (by exact rfl) hs _
  case ldSt x => exact changesOnly_setSt (by exact rfl) hs _
  case ldB x => exact changesOnly_setMem_writeSeq (fun k hk => ⟨k, hk, rfl⟩) hs
  case storeRegs x =>
    refine changesOnly_setMem_writeSeq (fun k hk => ?_) hs
    rw [State.firstRegs_length] at hk
    exact ⟨⟨k, by omega⟩, Fin.le_def.mpr (by simpa using hk), rfl⟩
  case loadRegs x =>
    refine changesOnly_putRegs s (by simp [State.bytesAtI]) (fun r hr => ?_)
    exact ⟨r, Fin.le_def.mpr (by simpa [State.bytesAtI] using hr), rfl⟩
  case ldByte | addByte | ldReg | orReg | andReg | xorReg | rnd | ldVxDt => exact changesOnly_setV (by exact rfl) hs _
  all_goals exact hs

/-- An instruction changes pc and the parts its rule names, and nothing else. -/
theorem effect_changesOnly (i : Instr) (s : State) :
    changesOnly (fun p => p = .pc ∨ mayWrite i s p) s (applyEffect (effectOf i s) (writesOf i s)) :=
  changesOnly_applyEffect (.inl rfl) (fun p hp => writesOf_changesOnly i s p fun hw => hp (.inr hw)) _

theorem exec_changesOnly {i : Instr} {s t : State} (h : exec i s = .next t) :
    changesOnly (fun p => p = .pc ∨ mayWrite i s p) s t :=
  (exec_next h).2 ▸ effect_changesOnly i s

/-- A part that an instruction changed is pc or one its rule names. -/
theorem mayWrite_of_changed {i : Instr} {s t : State} {p : Part} (h : exec i s = .next t) (hpc : p ≠ .pc)
    (hp : ¬ p.same s t) : mayWrite i s p := by
  by_contra hw
  exact hp (exec_changesOnly h p (not_or.mpr ⟨hpc, hw⟩))

end Sys2Proof.Machine
end

section
/-! PROOFS. The rules about every instruction: which of them write a part of the state (10_state R20 to R30, 20_memory
R59) and which read the step's inputs (10_state R28, 30_encoding R88). Each follows from the instruction's frame or from
its one form. -/

namespace Sys2Proof.Machine

/-! ### Writers -/

/-- Settles O21: a pixel is in the frame of CLS and DRW alone. -/
theorem onlyClsAndDrwChangePixels : Obligations.OnlyClsAndDrwChangePixels := by
  intro i s t p h hp
  have hw : mayWrite i s (.pixel p) := mayWrite_of_changed h (by simp) hp
  cases i
  case cls => exact .inl rfl
  case drw x y n => exact .inr ⟨x, y, n, rfl⟩
  all_goals simp [mayWrite] at hw

/-- Settles O22: a byte of memory is in the frame of LD B,Vx and LD [I],Vx alone. -/
theorem onlyBcdAndStoreChangeMemory : Obligations.OnlyBcdAndStoreChangeMemory := by
  intro i s t a h ha
  have hw : mayWrite i s (.byte a) := mayWrite_of_changed h (by simp) ha
  cases i
  case ldB x => exact .inl ⟨x, rfl⟩
  case storeRegs x => exact .inr ⟨x, rfl⟩
  all_goals simp [mayWrite] at hw

theorem mayWrite_index {i : Instr} {s : State} (h : mayWrite i s .index) :
    (∃ nnn, i = .ldI nnn) ∨ (∃ x, i = .addI x) ∨ ∃ x, i = .ldF x := by
  cases i <;> simp [mayWrite] at h ⊢

theorem mayWrite_sp {i : Instr} {s : State} (h : mayWrite i s .sp) : i = .ret ∨ ∃ nnn, i = .call nnn := by
  cases i <;> simp [mayWrite] at h ⊢

theorem mayWrite_delayTimer {i : Instr} {s : State} (h : mayWrite i s .delayTimer) : ∃ x, i = .ldDt x := by
  cases i <;> simp [mayWrite] at h ⊢

theorem mayWrite_soundTimer {i : Instr} {s : State} (h : mayWrite i s .soundTimer) : ∃ x, i = .ldSt x := by
  cases i <;> simp [mayWrite] at h ⊢

theorem mayWrite_wait {i : Instr} {s : State} (h : mayWrite i s .wait ∨ mayWrite i s .waitReg) : ∃ x, i = .ldVxK x := by
  cases i <;> simp [mayWrite] at h ⊢

/-- A slot is written by CALL alone, above the one sp names, which is the last of none it pushes from. -/
theorem mayWrite_slot {i : Instr} {s : State} {j : Fin 12} (h : mayWrite i s (.slot j)) (hf : faultOf i s = none) :
    j ≠ 0 ∧ ∃ nnn, i = .call nnn := by
  cases i
  case call nnn =>
    have hj : j = s.sp + 1 := by simpa [mayWrite] using h
    have hsp : s.sp ≠ 11 := by simpa [faultOf] using hf
    refine ⟨fun h0 => hsp ?_, nnn, rfl⟩
    rw [h0] at hj
    omega
  all_goals simp [mayWrite] at h

/-- A part that no instruction's rule names keeps its value. -/
theorem exec_same {i : Instr} {s t : State} {p : Part} (h : exec i s = .next t) (hpc : p ≠ .pc)
    (hw : ¬ mayWrite i s p) : p.same s t :=
  exec_changesOnly h p (not_or.mpr ⟨hpc, hw⟩)

theorem not_mayWrite_keys (i : Instr) (s : State) : ¬ mayWrite i s .keys := by cases i <;> simp [mayWrite]

theorem not_mayWrite_fault (i : Instr) (s : State) : ¬ mayWrite i s .fault := by cases i <;> simp [mayWrite]

/-- Settles O23: each part is in the frames of its writers alone, and LD Vx,K leaves the wait flag set. -/
theorem controlStateHasItsOwnWriters : Obligations.ControlStateHasItsOwnWriters := by
  intro i s t h
  have hchanged : ∀ p : Part, p ≠ .pc → ¬ p.same s t → mayWrite i s p := fun p => mayWrite_of_changed h
  refine ⟨fun hi => mayWrite_index (hchanged .index (by simp) hi), fun hsp => mayWrite_sp (hchanged .sp (by simp) hsp),
    fun j hj => mayWrite_slot (hchanged (.slot j) (by simp) hj) (exec_next h).1,
    fun hdt => mayWrite_delayTimer (hchanged .delayTimer (by simp) hdt),
    fun hst => mayWrite_soundTimer (hchanged .soundTimer (by simp) hst), fun hwait => ?_,
    exec_same h (p := .keys) (by simp) (not_mayWrite_keys i s),
    exec_same h (p := .fault) (by simp) (not_mayWrite_fault i s)⟩
  obtain ⟨x, rfl⟩ := mayWrite_wait (hwait.imp (hchanged .wait (by simp)) (hchanged .waitReg (by simp)))
  obtain ⟨-, rfl⟩ := exec_next h
  exact ⟨rfl, x, rfl⟩

/-- Settles O24: VF is in the frames of the flag writers, and in that of an instruction whose destination is VF. -/
theorem onlyFlagWritersAndDestinationsChangeVF : Obligations.OnlyFlagWritersAndDestinationsChangeVF := by
  intro i s t h hvf
  have hw : mayWrite i s (.reg flagReg) := mayWrite_of_changed h (by simp) hvf
  cases i
  case loadRegs x =>
    obtain ⟨r, hr, he⟩ := hw
    obtain rfl : flagReg = r := by simpa using he
    obtain rfl : flagReg = x := le_antisymm hr (Fin.le_last x)
    simp
  case ldByte x _ | addByte x _ | ldReg x _ | orReg x _ | andReg x _ | xorReg x _ | rnd x _ | ldVxDt x =>
    obtain rfl : flagReg = x := by simpa [mayWrite] using hw
    simp
  all_goals simp [mayWrite] at hw ⊢

/-! ### Readers of the step's inputs -/

/-- Another snapshot and another random byte latched. -/
def State.mapInput (f : BitVec 16 → BitVec 16) (g : Byte → Byte) (s : State) : State :=
  { s with keys := f s.keys, rnd := g s.rnd }

theorem setRnd_eq_mapInput (s : State) (b : Byte) : s.setRnd b = s.mapInput id (fun _ => b) := rfl

theorem setKeys_eq_mapInput (s : State) (ks : BitVec 16) : s.setKeys ks = s.mapInput (fun _ => ks) id := rfl

section
variable (f : BitVec 16 → BitVec 16) (g : Byte → Byte)

theorem faultOf_mapInput (i : Instr) (s : State) : faultOf i (s.mapInput f g) = faultOf i s := by
  cases i <;> rfl

/-- Only the effects of SKP and SKNP read the keypad. -/
theorem effectOf_mapInput {i : Instr} (hf : f = id ∨ ∀ x, i ≠ .skp x ∧ i ≠ .sknp x) (s : State) :
    effectOf i (s.mapInput f g) = effectOf i s := by
  cases i
  case skp x | sknp x =>
    obtain rfl : f = id := by simpa using hf
    rfl
  all_goals rfl

theorem applyEffect_mapInput (e : PcEffect) (s : State) :
    applyEffect e (s.mapInput f g) = (applyEffect e s).mapInput f g := by
  cases e <;> rfl

theorem writeFlagged_mapInput (x : Reg) (flag : Bool) {result : State → Byte}
    (hresult : ∀ t : State, result (t.mapInput f g) = result t) (s : State) :
    writeFlagged x flag result (s.mapInput f g) = (writeFlagged x flag result s).mapInput f g := by
  have hcfg : (s.mapInput f g).cfg = s.cfg := rfl
  rw [writeFlagged, writeFlagged, hcfg]
  cases s.cfg.vfAlias
  case sequential => exact congrArg (State.setV _ x) (hresult (s.setV flagReg (flagByte flag)))
  case operandsFirst => exact congrArg (fun b => (State.setV _ x b).setV flagReg (flagByte flag)) (hresult s)

theorem putRegs_mapInput (k : Nat) (bs : List Byte) (s : State) :
    State.putRegs k bs (s.mapInput f g) = (State.putRegs k bs s).mapInput f g := by
  induction bs generalizing k s with
  | nil => rfl
  | cons b bs ih => exact ih (k + 1) (s.setV (toNibble k) b)

theorem drawn_mapInput (x y : Reg) (n : Nibble) (s : State) : (s.mapInput f g).drawn x y n = s.drawn x y n := by
  have hcoord : ∀ r, (coordState (s.mapInput f g)).getV r = (coordState s).getV r := fun r => by
    rw [coordState_getV, coordState_getV]
    rfl
  rw [State.drawn, hcoord, hcoord]
  rfl

/-- Only the write of RND reads the random byte. -/
theorem writesOf_mapInput {i : Instr} (hg : g = id ∨ ∀ x kk, i ≠ .rnd x kk) (s : State) :
    writesOf i (s.mapInput f g) = (writesOf i s).mapInput f g := by
  cases i
  case rnd x kk =>
    obtain rfl : g = id := by simpa using hg
    rfl
  case addReg | subReg | shr | subnReg | shl =>
    unfold writesOf
    exact writeFlagged_mapInput f g _ _ (by exact fun _ => rfl) s
  case drw x y n =>
    rw [writesOf, drawn_mapInput]
    rfl
  case loadRegs x => exact putRegs_mapInput f g 0 _ s
  all_goals rfl

/-- An instruction that reads none of the inputs replaced ends as it did, those inputs apart. -/
theorem exec_mapInput {i : Instr} (hf : f = id ∨ ∀ x, i ≠ .skp x ∧ i ≠ .sknp x) (hg : g = id ∨ ∀ x kk, i ≠ .rnd x kk)
    (s : State) :
    exec i (s.mapInput f g) =
      (faultOf i s).elim (.next ((applyEffect (effectOf i s) (writesOf i s)).mapInput f g)) .fault := by
  rw [exec_eq, faultOf_mapInput, effectOf_mapInput f g hf, writesOf_mapInput f g hg, finish, applyEffect_mapInput]

end

/-- Settles O26: another random byte goes through the faults, writes and effects of every instruction but RND. -/
theorem onlyRndReadsTheRandomByte : Obligations.OnlyRndReadsTheRandomByte := by
  intro i s b hi
  rw [setRnd_eq_mapInput, exec_mapInput _ _ (.inl rfl) (.inr hi), exec_eq]
  cases faultOf i s <;> rfl

/-- Settles O27: another snapshot goes through the faults, writes and effects of every instruction but the key skips. -/
theorem onlyKeySkipsReadTheKeypad : Obligations.OnlyKeySkipsReadTheKeypad := by
  intro i s ks hi
  rw [setKeys_eq_mapInput, exec_mapInput _ _ (.inr hi) (.inl rfl), exec_eq]
  cases faultOf i s <;> rfl

end Sys2Proof.Machine
end

section
/-! PROOFS. The invariant of the block (10_state R22, R24; 91 N6, N8): the instruction's writes keep its part about
memory, screen and stack, and the pc effect its bound on pc. -/

namespace Sys2Proof.Machine

/-! ### The invariant but for pc -/

/-- `State.Inv` without its bound on pc. -/
def State.StoreInv (s : State) : Prop :=
  Memory.wf s.mem = true ∧ Fb.wf s.cfg s.fb = true ∧ 8 ≤ s.cfg.width ∧ 16 ≤ s.cfg.height
    ∧ ∀ j : Fin 12, s.stack[j.val].toNat ≤ 0x1000 ∧ s.stack[j.val].toNat < 2 ^ s.cfg.slotWidth

theorem State.inv_iff (s : State) : s.Inv ↔ s.StoreInv ∧ s.pc.toNat ≤ 0x10FE := by
  unfold State.Inv State.StoreInv
  tauto

/-- It speaks of four fields. -/
theorem State.StoreInv.congr {s t : State} (h : s.StoreInv) (hmem : t.mem = s.mem) (hfb : t.fb = s.fb)
    (hcfg : t.cfg = s.cfg) (hstack : t.stack = s.stack) : t.StoreInv := by
  simpa only [State.StoreInv, hmem, hfb, hcfg, hstack] using h

/-- Another memory in canonical form keeps it. -/
theorem State.StoreInv.setMem {s : State} (h : s.StoreInv) {mem : List Host.Cell} (hmem : Memory.wf mem = true) :
    (s.setMem mem).StoreInv := by
  obtain ⟨-, hrest⟩ := h
  exact ⟨hmem, hrest⟩

/-- A run of writes within memory keeps it. -/
theorem State.StoreInv.writeSeq {s : State} (h : s.StoreInv) {a : Nat} {bs : List Byte}
    (hfits : a + bs.length ≤ memSize) : (s.setMem (Memory.writeSeq s.mem a bs)).StoreInv :=
  h.setMem (Memory.writeSeq_wf bs s.mem a h.1 hfits)

/-- Another framebuffer in canonical form keeps it. -/
theorem State.StoreInv.setFb {s : State} (h : s.StoreInv) {fb : List (Nat × Nat)} (hfb : Fb.wf s.cfg fb = true) :
    (s.setFb fb).StoreInv := by
  obtain ⟨hmem, -, hrest⟩ := h
  exact ⟨hmem, hfb, hrest⟩

/-- A pushed address of at most 0x1000 keeps it, whatever part of it the slot holds (91 N8). -/
theorem State.StoreInv.push {s : State} (h : s.StoreInv) {a : Word} (ha : a.toNat ≤ 0x1000) : (s.push a).StoreInv := by
  obtain ⟨hmem, hfb, hwidth, hheight, hstack⟩ := h
  refine ⟨hmem, hfb, hwidth, hheight, fun j => ?_⟩
  have hslot : (slotValue s.cfg a).toNat ≤ 0x1000 ∧ (slotValue s.cfg a).toNat < 2 ^ s.cfg.slotWidth := by
    rw [slotValue_toNat]
    exact ⟨(Nat.mod_le _ _).trans ha, Nat.mod_lt _ (Nat.two_pow_pos _)⟩
  rw [State.push_stack, State.push_cfg, Vector.getElem_set]
  split
  · exact hslot
  · exact hstack j

/-- The sprite is drawn on the screen (44_display R230). -/
theorem State.StoreInv.drawn {s : State} (h : s.StoreInv) (x y : Reg) (n : Nibble) :
    Fb.wf s.cfg (s.drawn x y n).1 = true := by
  obtain ⟨-, hfb, hwidth, hheight, -⟩ := h
  exact drawRows_wf s.cfg (by omega) (by omega) _ _ _ _ _ hfb

/-- The sum of an address and a distance, wrapped or not. -/
theorem word_add_le {a : Word} {m : Nat} (h : a.toNat ≤ m) (d : Word) : (a + d).toNat ≤ m + d.toNat :=
  (BitVec.toNat_add a d ▸ Nat.mod_le _ _).trans (Nat.add_le_add_right h _)

theorem writesOf_storeInv {i : Instr} {s : State} (h : s.StoreInv) (hpc : s.pc.toNat ≤ 0xFFE)
    (hf : faultOf i s = none) : (writesOf i s).StoreInv := by
  cases i
  case cls => exact (h.setFb rfl).congr rfl rfl rfl rfl
  case call nnn => exact h.push (word_add_le hpc 2)
  case drw x y n => exact (h.setFb (h.drawn x y n)).congr rfl rfl rfl rfl
  case ldB x | storeRegs x =>
    refine h.writeSeq ?_
    simpa [faultOf, rangeFault_eq_none_iff, dataAddr] using hf
  all_goals exact h.congr (by simp [writesOf]) (by simp [writesOf]) (by simp [writesOf]) (by simp [writesOf])

/-! ### The bound on pc -/

theorem writesOf_pc (i : Instr) (s : State) : (writesOf i s).pc = s.pc := by
  cases i <;> simp [writesOf]

theorem skipIf_ne_jump (b : Bool) (a : Nat) : skipIf b ≠ .jump a := by cases b <;> simp [skipIf]

/-- A jump goes to a 12-bit address, to a pushed one, or to the sum of a byte and a 12-bit address (91 N8). -/
theorem jump_target_le {i : Instr} {s : State} {a : Nat} (h : s.StoreInv) (he : effectOf i s = .jump a) :
    a ≤ 0x10FE := by
  cases i
  case ret =>
    obtain ⟨-, -, -, -, hstack⟩ := h
    obtain rfl : s.top.toNat = a := by simpa [effectOf] using he
    have := (hstack s.sp).1
    exact this.trans (by decide)
  case jp nnn | call nnn =>
    obtain rfl : nnn.toNat = a := by simpa [effectOf] using he
    omega
  case jpV0 nnn =>
    obtain rfl : (s.getV 0).toNat + nnn.toNat = a := by simpa [effectOf, offsetTarget] using he
    omega
  all_goals simp [effectOf, skipIf_ne_jump] at he

theorem applyEffect_pc_le {e : PcEffect} {t : State} (hpc : t.pc.toNat ≤ 0xFFE)
    (hjump : ∀ a, e = .jump a → a ≤ 0x10FE) : (applyEffect e t).pc.toNat ≤ 0x10FE := by
  cases e with
  | advance =>
    exact (word_add_le hpc 2).trans (by decide)
  | skip =>
    exact (word_add_le hpc 4).trans (by decide)
  | jump a =>
    rw [applyEffect_jump_pc, BitVec.toNat_ofNat]
    exact (Nat.mod_le _ _).trans (hjump a rfl)

/-! ### Instructions and steps -/

/-- An instruction fetched within memory keeps the invariant. -/
theorem exec_inv {i : Instr} {s t : State} (h : s.StoreInv) (hpc : s.pc.toNat ≤ 0xFFE) (he : exec i s = .next t) :
    t.Inv := by
  obtain ⟨hf, rfl⟩ := exec_next he
  have hstore : (writesOf i s).StoreInv := writesOf_storeInv h hpc hf
  refine (State.inv_iff _).mpr ⟨hstore.congr (by simp) (by simp) (by simp) (by simp), ?_⟩
  exact applyEffect_pc_le (by rwa [writesOf_pc]) fun a => jump_target_le h

theorem waitScan_inv {s : State} (h : s.Inv) : (waitScan s).Inv := by
  obtain ⟨k, -, hscan⟩ | ⟨-, hscan⟩ := waitScan_cases s
  · rw [hscan]
    exact h
  · rwa [hscan]

/-- Settles O19: a scan and a recorded fault touch nothing the invariant speaks of, and an instruction runs only where
its word lies in memory. -/
theorem stepKeepsTheInvariant : Obligations.StepKeepsTheInvariant := by
  intro s t h hstep
  obtain ⟨-, ⟨-, rfl⟩ | ⟨-, f, rfl⟩ | ⟨-, hpc, he⟩⟩ := step_cases hstep
  · exact waitScan_inv (s := s.beginStep) h
  · exact h
  · have hstore : (timerTick s.beginStep).StoreInv := ((State.inv_iff s).mp h).1
    exact exec_inv hstore (Nat.le_sub_of_add_le hpc) he

/-- Settles O20: nothing is listed or lit, and every slot is 0. -/
theorem resetMeetsTheInvariant : Obligations.ResetMeetsTheInvariant :=
  ⟨rfl, rfl, by decide, by decide, by decide, by decide⟩

end Sys2Proof.Machine
end

section
/-! PROOFS. The step (30_encoding R86): what a waiting step, a faulting step and a step that runs an instruction
leave. -/

namespace Sys2Proof.Machine

/-! ### What a step answers -/

/-- Settles O9: the fetched word is decoded to a well-formed instruction, which runs on the ticked state. -/
theorem stepRunsTheDecodedInstruction : Obligations.StepRunsTheDecodedInstruction := by
  rintro s i hf hw hpc rfl
  refine ⟨decode_wellFormed _ _, (step_fetchable hf hw hpc).trans ?_⟩
  unfold State.fetched
  cases exec _ (timerTick s.beginStep) <;> rfl

/-- Settles O10: the fault of the fetch is recorded over the state the step began in. -/
theorem fetchBeyondMemoryIsRecorded : Obligations.FetchBeyondMemoryIsRecorded :=
  fun _ hf hw hpc => step_unfetchable hf hw hpc

/-- Settles O12: the fault status is asked for before anything else. -/
theorem faultedStateHasNoFurtherStep : Obligations.FaultedStateHasNoFurtherStep := fun s f hf =>
  ⟨step_faulted hf, fun t ht => by simp [step_faulted hf] at ht⟩

/-- Settles O13: a scan always answers, and `exec` answers a next state or a fault, which is recorded in one. -/
theorem everyUnfaultedStateSteps : Obligations.EveryUnfaultedStateSteps := by
  intro s hf
  cases hw : s.wait with
  | true => exact ⟨_, step_waiting hf hw⟩
  | false =>
    by_cases hpc : s.pc.toNat + 1 ≤ 0xFFF
    · rw [step_fetchable hf hw hpc, exec_eq]
      cases faultOf s.fetched (timerTick s.beginStep) with
      | none => exact ⟨_, rfl⟩
      | some f => exact ⟨takeFault s f, rfl⟩
    · exact ⟨_, step_unfetchable hf hw (by omega)⟩

/-! ### The parts that no instruction changes -/

theorem waitScan_changesOnly {may : Part → Prop} {s : State} (hwait : may .wait) (hreg : may (.reg s.waitReg)) :
    changesOnly may s (waitScan s) := by
  obtain ⟨k, -, hscan⟩ | ⟨-, hscan⟩ := waitScan_cases s
  · rw [hscan]
    intro p hp
    cases p
    case wait => exact absurd hwait hp
    case reg r =>
      have hne : r ≠ s.waitReg := fun e => hp (e ▸ hreg)
      simp [Part.same, hne]
    all_goals rfl
  · rw [hscan]
    exact changesOnly_refl may s

/-- The parts that neither an instruction nor the wait scan writes. -/
def untouched (p : Part) : Prop :=
  p = .keys ∨ p = .rnd ∨ p = .inputs ∨ p = .inputCount ∨ p = .fault ∨ p = .cfg ∨ p = .slot 0

theorem not_mayWrite_of_untouched {i : Instr} {s : State} {p : Part} (hf : faultOf i s = none) (hp : untouched p) :
    ¬ mayWrite i s p := by
  obtain rfl | rfl | rfl | rfl | rfl | rfl | rfl := hp
  case inr.inr.inr.inr.inr.inr => exact fun hw => (mayWrite_slot hw hf).1 rfl
  all_goals cases i <;> simp [mayWrite]

/-- A step records a fault, or leaves those parts as the input latch left them. -/
theorem step_untouched {s t : State} (h : step s = .next t) :
    s.fault = none ∧ ((∃ f, t = takeFault s f) ∨ ∀ p, untouched p → p.same s.beginStep t) := by
  obtain ⟨hfault, ⟨-, rfl⟩ | ⟨-, hf⟩ | ⟨-, -, he⟩⟩ := step_cases h
  · refine ⟨hfault, .inr fun p hp => ?_⟩
    refine waitScan_changesOnly (may := fun p => ¬ untouched p) ?_ ?_ p (not_not.mpr hp) <;> simp [untouched]
  · exact ⟨hfault, .inl hf⟩
  · refine ⟨hfault, .inr fun p hp => ?_⟩
    have hpc : p ≠ .pc := fun e => by simp [e, untouched] at hp
    have hsame := exec_same he hpc (not_mayWrite_of_untouched (exec_next he).1 hp)
    obtain rfl | rfl | rfl | rfl | rfl | rfl | rfl := hp <;> exact hsame

/-- Settles O11: a step that ran or scanned leaves the fault status empty, so only a recorded fault is left. -/
theorem faultDiscardsTheWholeStep : Obligations.FaultDiscardsTheWholeStep := by
  intro s t f hstep hf
  obtain ⟨hnone, ⟨g, rfl⟩ | hsame⟩ := step_untouched hstep
  · obtain rfl : g = f := Option.some.inj hf
    rfl
  · have hkept : t.fault = s.fault := hsame .fault (by simp [untouched])
    simp [hkept, hnone] at hf

/-- Settles O16: the latch sets the input fields, and nothing later in a step that records no fault changes them. -/
theorem keypadIsTheStepsSnapshot : Obligations.KeypadIsTheStepsSnapshot := by
  intro s t hstep hf
  obtain ⟨-, ⟨g, rfl⟩ | hsame⟩ := step_untouched hstep
  · simp at hf
  · have hkeys : t.keys = s.nextInput.keys := hsame .keys (by simp [untouched])
    have hrnd : t.rnd = s.nextInput.rnd := hsame .rnd (by simp [untouched])
    refine ⟨hkeys, hrnd, hsame .inputs (by simp [untouched]), hsame .inputCount (by simp [untouched]),
      fun inp rest hinputs => ?_⟩
    have hnext : s.nextInput = inp := by simp [State.nextInput, hinputs]
    rw [hkeys, hrnd, hnext]
    exact ⟨rfl, rfl⟩

/-- Settles O28: no instruction names the parameters, and CALL pushes above slot 0. -/
theorem stepKeepsParametersAndSlotZero : Obligations.StepKeepsParametersAndSlotZero := by
  intro s t hstep
  obtain ⟨-, ⟨g, rfl⟩ | hsame⟩ := step_untouched hstep
  · exact ⟨rfl, rfl⟩
  · exact ⟨hsame .cfg (by simp [untouched]), hsame (.slot 0) (by simp [untouched])⟩

/-! ### The waiting step -/

theorem Part.same_trans {s t u : State} {p : Part} (h₁ : p.same s t) (h₂ : p.same t u) : p.same s u := by
  cases p <;> exact Eq.trans h₂ h₁

theorem changesOnly_trans {may : Part → Prop} {s t u : State} (h₁ : changesOnly may s t) (h₂ : changesOnly may t u) :
    changesOnly may s u :=
  fun p hp => Part.same_trans (h₁ p hp) (h₂ p hp)

theorem waitScan_of_firstKey {s : State} {k : Reg} (h : firstKey s.keys = some k) : waitScan s = s.endWait k := by
  rw [waitScan, h]

theorem waitScan_of_noKey {s : State} (h : firstKey s.keys = none) : waitScan s = s := by rw [waitScan, h]

theorem waitScan_keys (s : State) : (waitScan s).keys = s.keys :=
  waitScan_changesOnly (may := (· ≠ .keys)) (by simp) (by simp) .keys (by simp)

theorem waitScan_redraw (s : State) : (waitScan s).redraw = s.redraw :=
  waitScan_changesOnly (may := (· ≠ .redraw)) (by simp) (by simp) .redraw (by simp)

/-- Settles O14: the step is the latch and the scan, and the scan ends the wait exactly with the least pressed key. -/
theorem waitingStepOnlyScans : Obligations.WaitingStepOnlyScans := by
  intro s hf hw
  refine ⟨waitScan s.beginStep, step_waiting hf hw, waitScan_keys s.beginStep, waitScan_redraw s.beginStep,
    changesOnly_trans (changesOnly_beginStep (by simp) (by simp) (by simp) (by simp) (by simp) s)
      (waitScan_changesOnly (by simp) (by simp)), fun k hk hleast => ?_, fun hnone => ?_⟩
  · rw [waitScan_of_firstKey (firstKey_eq_some.mpr ⟨hk, hleast⟩)]
    simp
  · rw [waitScan_of_noKey (firstKey_eq_none.mpr hnone)]
    exact ⟨rfl, hw⟩

/-! ### The redraw request -/

/-- Only DRW and CLS set the redraw mark, CLS if it is to (44_display R231, R232). -/
theorem writesOf_redraw (i : Instr) (s : State) :
    (writesOf i s).redraw = true ↔
      s.redraw = true ∨ (∃ x y n, i = .drw x y n) ∨ (i = .cls ∧ s.cfg.clsRedraw = true) := by
  cases i <;> simp [writesOf]

/-- Settles O17: the mark is cleared at the start of the step, and the request asks for a step without a fault. -/
theorem redrawIsRequestedByItsOwnStep : Obligations.RedrawIsRequestedByItsOwnStep := by
  intro s t hstep
  show t.requestRedraw = true ↔ t.fault = none ∧ s.wait = false ∧
    ((∃ x y n, s.fetched = .drw x y n) ∨ (s.fetched = .cls ∧ s.cfg.clsRedraw = true))
  obtain ⟨hfault, ⟨hw, rfl⟩ | ⟨hw, f, rfl⟩ | ⟨hw, hpc, he⟩⟩ := step_cases hstep
  · simp [State.requestRedraw, waitScan_redraw, hw]
  · simp [State.requestRedraw]
  · have hnone : t.fault = none :=
      (exec_same he (p := .fault) (by simp) (not_mayWrite_fault _ _)).trans hfault
    obtain ⟨-, rfl⟩ := exec_next he
    have hmark := writesOf_redraw s.fetched (timerTick s.beginStep)
    rw [State.requestRedraw, hnone]
    simpa [hw] using hmark

/-! ### The end of a run -/

/-- The parts that a step from the end of a run may change. -/
def runsDown (p : Part) : Prop :=
  p = .soundTimer ∨ p = .delayTimer ∨ p = .keys ∨ p = .redraw ∨ p = .rnd ∨ p = .inputs ∨ p = .inputCount

/-- A jump of an instruction to its own address leaves every part as it is. -/
theorem exec_selfJump {s : State} {h : Addr} (hpc : s.pc = h.setWidth 16) : exec (.jp h) s = .next s := by
  have htarget : BitVec.ofNat 16 h.toNat = s.pc := by rw [hpc, BitVec.ofNat_toNat]
  rw [exec_jp, finish, applyEffect, htarget]
  rfl

/-- From the conditions of the end of a run a step latches, ticks and jumps to itself (60_exceptions R316). -/
theorem step_of_endConditions {h : Addr} {s : State} (hs : endConditions h s = true) :
    step s = .next (timerTick s.beginStep) := by
  obtain ⟨hpc, hw, hfault, hmem, hword⟩ := (endConditions_iff h s).mp hs
  have hnat : s.pc.toNat = h.toNat := by rw [hpc, BitVec.toNat_setWidth_of_le (by decide)]
  have hfetched : s.fetched = .jp h := by
    rw [State.fetched, hnat, hword]
    exact decode_encode _ _ rfl
  have hjump : exec (.jp h) (timerTick s.beginStep) = .next (timerTick s.beginStep) := exec_selfJump hpc
  rw [step_fetchable hfault hw (hnat ▸ Nat.le_of_lt_succ hmem), hfetched, hjump, settle]

theorem endConditions_ticked {h : Addr} {s : State} (hs : endConditions h s = true) :
    endConditions h (timerTick s.beginStep) = true := hs

theorem ticked_runsDown (s : State) : changesOnly runsDown s (timerTick s.beginStep) := fun p hp =>
  changesOnly_ticked s p fun hmay => hp (by unfold runsDown; tauto)

/-- `k` steps from the conditions of the end of a run: they hold, and each timer has run down by `k` or to 0. -/
theorem afterSteps_of_endConditions {h : Addr} {t : State} (ht : endConditions h t = true) (k : Nat) :
    ∃ u, afterSteps k t = some u ∧ endConditions h u = true ∧ (k ≠ 0 → u.redraw = false) ∧
      u.st.toNat = t.st.toNat - k ∧ u.dt.toNat = t.dt.toNat - k ∧ changesOnly runsDown t u := by
  induction k with
  | zero => exact ⟨t, rfl, ht, fun h0 => absurd rfl h0, rfl, rfl, changesOnly_refl _ t⟩
  | succ k ih =>
    obtain ⟨u, hrun, hu, -, hst, hdt, hframe⟩ := ih
    refine ⟨timerTick u.beginStep, afterSteps_succ hrun (step_of_endConditions hu), endConditions_ticked hu,
      fun _ => rfl, ?_, ?_, changesOnly_trans hframe (ticked_runsDown u)⟩
    · rw [timerTick_st, tickDown_toNat, State.beginStep_st, hst, Nat.sub_sub]
    · rw [timerTick_dt, tickDown_toNat, State.beginStep_dt, hdt, Nat.sub_sub]

/-- No end of a run comes before another. -/
theorem endOfRun_step_le {h : Addr} {start t u : State} {n m : Nat} (ht : endOfRun h start n t)
    (hu : endOfRun h start m u) : n ≤ m := by
  obtain ⟨-, -, -, hfirst⟩ := ht
  obtain ⟨hm, hrun, hend, -⟩ := hu
  by_contra hlt
  have hnot := hfirst m hm (by omega)
  rw [endConditionsAfter, hrun] at hnot
  simp [hend] at hnot

/-- Settles O18: the self-jump is a step that only latches and ticks, the rest is an induction on the steps, and the
first state of two is the same one. -/
theorem endOfRunStays : Obligations.EndOfRunStays := by
  refine ⟨fun h s hs => ?_, fun h start t n hend k => ?_, fun h start t u n m ht hu => ?_⟩
  · exact ⟨_, step_of_endConditions hs, endConditions_ticked hs, rfl, tickDown_toNat s.st, tickDown_toNat s.dt,
      ticked_runsDown s⟩
  · obtain ⟨-, hrun, ht, -⟩ := hend
    obtain ⟨u, hsteps, hu⟩ := afterSteps_of_endConditions ht k
    exact ⟨u, (afterSteps_add hrun k).trans hsteps, hu⟩
  · have hnm : n = m := Nat.le_antisymm (endOfRun_step_le ht hu) (endOfRun_step_le hu ht)
    obtain ⟨-, hrun, -⟩ := ht
    obtain ⟨-, hrun', -⟩ := hu
    exact ⟨hnm, Option.some.inj (hrun.symm.trans (hnm ▸ hrun'))⟩

end Sys2Proof.Machine
end

section
/-! PROOFS. Single instructions: control flow and the call stack (40_control_flow), the shifts and RND
(41_register_alu), the keypad (43_timers_keypad) and CLS (44_display). -/

namespace Sys2Proof.Machine

/-! ### No-ops, the wait, CLS -/

/-- Settles O29: neither writes anything before its pc effect. -/
theorem sysAndUnknownOnlyAdvance : Obligations.SysAndUnknownOnlyAdvance := fun s nnn w =>
  ⟨endsNext_of_noFault (i := .sys nnn) rfl ⟨rfl, applyEffect_changesOnly_pc _ s⟩,
   endsNext_of_noFault (i := .unknown w) rfl ⟨rfl, applyEffect_changesOnly_pc _ s⟩⟩

/-- Settles O53: the write of the wait state leaves Vx alone. -/
theorem ldVxKEntersTheWait : Obligations.LdVxKEntersTheWait := fun s x =>
  endsNext_of_noFault (i := .ldVxK x) rfl ⟨rfl, rfl, rfl, effect_changesOnly (.ldVxK x) s⟩

/-- Settles O54: no pixel is in the empty list. -/
theorem clsClearsEveryPixel : Obligations.ClsClearsEveryPixel := fun s =>
  endsNext_of_noFault (i := .cls) rfl ⟨fun _ => rfl, rfl, rfl, effect_changesOnly .cls s⟩

/-! ### The key skips -/

theorem exec_skp {x : Reg} {s : State} (h : (s.getV x).toNat ≤ 15) :
    exec (.skp x) s = finish (skipIf (keyDown s.keys (s.getV x).toNat)) s :=
  exec_of_noFault (i := .skp x) (keyFault_eq_none_iff.mpr h)

theorem exec_sknp {x : Reg} {s : State} (h : (s.getV x).toNat ≤ 15) :
    exec (.sknp x) s = finish (skipIf (!keyDown s.keys (s.getV x).toNat)) s :=
  exec_of_noFault (i := .sknp x) (keyFault_eq_none_iff.mpr h)

/-- Settles O52: with a key index the two skip on opposite tests of one key, and without one they fault. -/
theorem keySkipsTestOneKey : Obligations.KeySkipsTestOneKey := by
  intro s x
  split
  · next hkey =>
    refine ⟨endsNext_of_skipIf (exec_skp hkey) Iff.rfl, ?_⟩
    obtain ⟨t, hexec, hpc, hframe⟩ :=
      endsNext_of_skipIf (P := ¬ s.keys.getLsbD (s.getV x).toNat = true) (exec_sknp hkey) (by simp [keyDown])
    exact ⟨t, hexec, hpc.trans (ite_not ..), hframe⟩
  · next hkey =>
    have hfault : keyFault s x = some (.keyIndexOutOfRange (s.getV x)) :=
      keyFault_eq_some_iff.mpr ⟨Nat.lt_of_not_le hkey, rfl⟩
    exact ⟨exec_eq_fault_iff.mpr hfault, exec_eq_fault_iff.mpr hfault⟩

/-! ### CALL and RET -/

theorem faultOf_call_eq_none {s : State} (h : s.sp ≠ 11) (nnn : Addr) : faultOf (.call nnn) s = none := if_neg h

theorem faultOf_ret_eq_none {s : State} (h : s.sp ≠ 0) : faultOf .ret s = none := if_neg h

/-- Below the last slot sp counts up without wrapping (10_state R24). -/
theorem sp_succ_val {j : Fin 12} (h : j ≠ 11) : (j + 1).val = j.val + 1 := by omega

/-- Above slot 0 sp counts down without wrapping (10_state R24). -/
theorem sp_pred_val {j : Fin 12} (h : j ≠ 0) : (j - 1).val + 1 = j.val := by omega

theorem push_top (s : State) (a : Word) : (s.push a).top = slotValue s.cfg a := by
  simp [State.top]

/-- Settles O32: the pushed address is what the slot keeps of pc + 2. -/
theorem callPushesAndJumps : Obligations.CallPushesAndJumps := by
  refine fun s nnn => ⟨fun hsp => ?_, fun hsp => exec_eq_fault_iff.mpr (if_pos hsp)⟩
  have htop : (applyEffect (.jump nnn.toNat) (s.push (s.pc + 2))).top = slotValue s.cfg (s.pc + 2) := push_top s _
  refine endsNext_of_noFault (faultOf_call_eq_none hsp nnn) ⟨?_, sp_succ_val hsp, ?_, fun hwide => ?_,
    effect_changesOnly (.call nnn) s⟩
  · exact (BitVec.toNat_ofNat _ 16).trans (Nat.mod_eq_of_lt (by omega))
  · exact (congrArg BitVec.toNat htop).trans (slotValue_toNat _ _)
  · exact htop.trans (slotValue_of_wide hwide _)

/-- Settles O33: RET jumps to the slot sp names, and drops it without a write. -/
theorem retPopsAndJumps : Obligations.RetPopsAndJumps := by
  refine fun s => ⟨fun hsp => ?_, fun hsp => exec_eq_fault_iff.mpr (if_pos hsp)⟩
  exact endsNext_of_noFault (faultOf_ret_eq_none hsp)
    ⟨(BitVec.ofNat_toNat 16 _).trans (BitVec.setWidth_eq _), sp_pred_val hsp, effect_changesOnly .ret s⟩

/-- A part that ends as it began may be left out of the frame. -/
theorem changesOnly_of_same {may : Part → Prop} {s t : State} {q : Part} (h : changesOnly (fun p => may p ∨ p = q) s t)
    (hq : q.same s t) : changesOnly may s t := fun p hp => by
  by_cases he : p = q
  · exact he ▸ hq
  · exact h p (not_or.mpr ⟨hp, he⟩)

/-- Settles O34: RET finds the slot CALL wrote, and sp is back where it was. -/
theorem callThenRetComesBack : Obligations.CallThenRetComesBack := by
  intro s nnn hsp
  obtain ⟨t, hcall, -, hspt, hslot, hwide, hframe⟩ := (callPushesAndJumps s nnn).1 hsp
  have hne : t.sp ≠ 0 := fun h0 => by simp [h0] at hspt
  obtain ⟨u, hret, hpc, hspu, hframe'⟩ := (retPopsAndJumps t).1 hne
  refine ⟨t, u, hcall, hret, hpc ▸ hslot, fun h16 => hpc.trans (hwide h16), ?_⟩
  have hback : u.sp = s.sp := Fin.ext (by omega)
  refine changesOnly_of_same (q := .sp) (changesOnly_trans (fun p hp => hframe p ?_) fun p hp => hframe' p ?_) hback
  · tauto
  · tauto

/-! ### The shifts and RND -/

theorem exec_shr (x y : Reg) (s : State) :
    exec (.shr x y) s = finish .advance (writeFlagged x (lowBit (s.getV x)) (fun t => t.getV x >>> 1) s) := rfl

theorem exec_shl (x y : Reg) (s : State) :
    exec (.shl x y) s = finish .advance (writeFlagged x (highBit (s.getV x)) (fun t => t.getV x <<< 1) s) := rfl

theorem exec_rnd (x : Reg) (kk : Byte) (s : State) :
    exec (.rnd x kk) s = finish .advance (s.setV x (s.rnd &&& kk)) := rfl

/-- A shift of the destination, as numbers: the result, the flag, and the flag shifted, which the Sequential reading
gives with VF as the destination. -/
theorem writeFlagged_shift_getV {x : Reg} {flag : Bool} {shift : Byte → Byte} {s : State} {r f k : Nat}
    (hr : (shift (s.getV x)).toNat = r) (hf : (flagByte flag).toNat = f) (hk : (shift (flagByte flag)).toNat = k) :
    ((writeFlagged x flag (fun t => shift (t.getV x)) s).getV x).toNat =
      if x ≠ flagReg then r
      else match s.cfg.vfAlias with
        | .sequential => k
        | .operandsFirst => f := by
  rw [writeFlagged_getV]
  by_cases hx : x = flagReg
  · subst hx
    cases s.cfg.vfAlias <;> simp [hf, hk]
  · cases s.cfg.vfAlias <;> simp [hx, hr]

theorem flagByte_shr : ∀ b : Bool, (flagByte b >>> 1).toNat = 0 := by decide

theorem flagByte_shl : ∀ b : Bool, (flagByte b <<< 1).toNat = (flagByte b).toNat * 2 := by decide

/-- Settles O42: both are one flag-writing shift; only with VF as the destination do the readings differ. -/
theorem shiftsMoveOneBitThroughVF : Obligations.ShiftsMoveOneBitThroughVF := by
  intro s x y v
  obtain ⟨hshr, hlow⟩ := shr_toNat (s.getV x)
  obtain ⟨hshl, hhigh⟩ := shl_toNat (s.getV x)
  constructor
  · obtain ⟨t, hexec, hx, hflag, hrest⟩ := endsNext_of_writeFlagged (exec_shr x y s)
    have hresult := writeFlagged_shift_getV (shift := (· >>> 1)) hshr hlow (flagByte_shr _)
    exact ⟨t, hexec, (congrArg BitVec.toNat hx).trans hresult, fun hne => by rw [hflag hne, hlow], hrest⟩
  · obtain ⟨t, hexec, hx, hflag, hrest⟩ := endsNext_of_writeFlagged (exec_shl x y s)
    have hshifted := (flagByte_shl _).trans (congrArg (· * 2) hhigh)
    have hresult := writeFlagged_shift_getV (shift := (· <<< 1)) hshl hhigh hshifted
    exact ⟨t, hexec, (congrArg BitVec.toNat hx).trans hresult, fun hne => by rw [hflag hne, hhigh], hrest⟩

/-- Settles O43: one register write, of a bitwise AND. -/
theorem rndMasksTheRandomByte : Obligations.RndMasksTheRandomByte := by
  intro s x kk
  obtain ⟨t, hexec, hx, hrest⟩ := endsNext_of_setV (exec_rnd x kk s)
  exact ⟨t, hexec, fun k => by rw [hx, BitVec.getLsbD_and], hrest⟩

end Sys2Proof.Machine
end

section
/-! PROOFS. The index register and memory transfer (42_index_memory): one test of the data addresses, then one run of
writes or of register loads. -/

namespace Sys2Proof.Machine

theorem exec_addI (x : Reg) (s : State) :
    exec (.addI x) s = finish .advance (s.setI (s.i + (s.getV x).setWidth 16)) := rfl

/-- Settles O45: a byte is added to I modulo 2^16. -/
theorem addIWrapsAtSixteenBits : Obligations.AddIWrapsAtSixteenBits := fun s x =>
  endsNext_of_setI (exec_addI x s) (by
    rw [BitVec.toNat_add, BitVec.toNat_setWidth_of_le (by decide)])

/-! ### The test of the data addresses -/

/-- The last of `k + 1` addresses from I lies in memory. -/
theorem rangeFault_of_le {s : State} {k : Nat} (h : dataAddr s 0 + k ≤ 0xFFF) : rangeFault s (k + 1) = none :=
  rangeFault_eq_none_iff.mpr (.inr (Nat.succ_le_succ h))

/-- The last of `k + 1` addresses from I lies above memory. -/
theorem rangeFault_of_gt {s : State} {k : Nat} (h : ¬ dataAddr s 0 + k ≤ 0xFFF) :
    rangeFault s (k + 1) = some (.memoryOutOfRange (max (dataAddr s 0) 0x1000)) :=
  rangeFault_eq_some_iff.mpr ⟨Nat.succ_pos k, Nat.lt_of_not_le h, rfl⟩

theorem le_of_rangeFault {s : State} {k : Nat} (h : rangeFault s (k + 1) = none) : dataAddr s 0 + k ≤ 0xFFF := by
  by_contra hgt
  simp [rangeFault_of_gt hgt] at h

/-! ### LD B,Vx -/

/-- Each digit fits in a byte (42_index_memory R173). -/
theorem bcdDigits_toNat (b : Byte) :
    (bcdDigits b)[0].toNat = b.toNat / 100 ∧ (bcdDigits b)[1].toNat = b.toNat / 10 % 10 ∧
      (bcdDigits b)[2].toNat = b.toNat % 10 := by
  have hfits : ∀ {n : Nat}, n < 2 ^ 8 → (BitVec.ofNat 8 n).toNat = n := fun h =>
    (BitVec.toNat_ofNat _ 8).trans (Nat.mod_eq_of_lt h)
  exact ⟨hfits (by omega), hfits (by omega), hfits (by omega)⟩

/-- Settles O46: the test of the addresses is the one bound, and the three writes read back. -/
theorem ldBStoresThreeDigits : Obligations.LdBStoresThreeDigits := by
  intro s x a v
  split
  · next hfits =>
    obtain ⟨hhundreds, htens, hones⟩ := bcdDigits_toNat (s.getV x)
    have hread := Memory.read_writeSeq_add (bcdDigits (s.getV x)) s.mem a
    exact endsNext_of_noFault (i := .ldB x) (rangeFault_of_le hfits)
      ⟨(congrArg BitVec.toNat (hread 0 (by simp))).trans hhundreds,
        (congrArg BitVec.toNat (hread 1 (by simp))).trans htens,
        (congrArg BitVec.toNat (hread 2 (by simp))).trans hones, rfl, effect_changesOnly (.ldB x) s⟩
  · next hfits => exact exec_eq_fault_iff.mpr (rangeFault_of_gt hfits)

/-! ### LD [I],Vx and LD Vx,[I] -/

/-- Settles O47: the run of writes covers byte I + r with Vr for each r up to x. -/
theorem storeRegsWritesV0ToVx : Obligations.StoreRegsWritesV0ToVx := by
  intro s x a
  split
  · next hfits =>
    refine endsNext_of_noFault (i := .storeRegs x) (rangeFault_of_le hfits)
      ⟨fun r hr => ?_, rfl, effect_changesOnly (.storeRegs x) s⟩
    have hlt : r.val < (s.firstRegs x).length := by
      rw [State.firstRegs_length]
      exact Nat.lt_succ_of_le hr
    exact (Memory.read_writeSeq_add _ s.mem a r.val hlt).trans (State.firstRegs_getElem s x r.val hlt)
  · next hfits => exact exec_eq_fault_iff.mpr (rangeFault_of_gt hfits)

/-- Each register loaded from I upward holds the byte at its place (42_index_memory R175). -/
theorem putRegs_bytesAtI_getV (s : State) {r x : Reg} (hr : r ≤ x) :
    (State.putRegs 0 (s.bytesAtI (x.val + 1)) s).getV r = Memory.read s.mem (dataAddr s 0 + r.val) := by
  have hle : r.val ≤ x.val := hr
  have hlength : (s.bytesAtI (x.val + 1)).length = x.val + 1 := by simp [State.bytesAtI]
  rw [State.putRegs_getV _ _ _ _ (by omega), dif_pos (by omega)]
  simp [State.bytesAtI]

/-- Settles O48: the run of register loads covers Vr with byte I + r for each r up to x. -/
theorem loadRegsReadsV0ToVx : Obligations.LoadRegsReadsV0ToVx := by
  intro s x a
  split
  · next hfits =>
    refine endsNext_of_noFault (i := .loadRegs x) (rangeFault_of_le hfits)
      ⟨fun r hr => ?_, congrArg (· + 2) (writesOf_pc (.loadRegs x) s), effect_changesOnly (.loadRegs x) s⟩
    exact (applyEffect_getV _ _ r).trans (putRegs_bytesAtI_getV s hr)
  · next hfits => exact exec_eq_fault_iff.mpr (rangeFault_of_gt hfits)

/-- What LD [I],Vx leaves when it answers a next state: its addresses lie in memory, and byte I + r is Vr. -/
theorem storeRegs_next {s t : State} {x : Reg} (h : exec (.storeRegs x) s = .next t) :
    s.i.toNat + x.val ≤ 0xFFF ∧ t.i = s.i ∧ ∀ r : Reg, r ≤ x → Memory.read t.mem (s.i.toNat + r.val) = s.getV r := by
  have hfits : s.i.toNat + x.val ≤ 0xFFF := le_of_rangeFault (exec_next h).1
  have hstore := storeRegsWritesV0ToVx s x
  obtain ⟨t', ht', hbytes, -, hframe⟩ := (if_pos hfits).mp hstore
  obtain rfl : t = t' := by simpa [h] using ht'
  exact ⟨hfits, hframe .index (by simp), hbytes⟩

/-- Settles O49: the loading state has the bytes stored, and its I. -/
theorem storedRegistersLoadBack : Obligations.StoredRegistersLoadBack := by
  intro s t u x hstore hmem hi
  obtain ⟨hfits, hti, hbytes⟩ := storeRegs_next hstore
  have hload := loadRegsReadsV0ToVx u x
  have haddr : dataAddr u 0 = s.i.toNat := by rw [dataAddr, hi, hti, Nat.add_zero]
  simp only [haddr, hmem, if_pos hfits] at hload
  obtain ⟨w, hexec, hregs, -⟩ := hload
  exact ⟨w, hexec, fun r hr => (hregs r hr).trans (hbytes r hr)⟩

/-- Settles O50: both bytes of the word are stored ones. -/
theorem fetchSeesStoredBytes : Obligations.FetchSeesStoredBytes := by
  intro s t u x r q hstore hmem hq hr hpc
  obtain ⟨hfits, -, hbytes⟩ := storeRegs_next hstore
  have hqx : q.val ≤ x.val := hq
  have hrx : r ≤ x := Fin.le_def.mpr (by omega)
  have hinside : ¬ u.pc.toNat + 1 > 0xFFF := by omega
  have hnext : u.pc.toNat + 1 = s.i.toNat + q.val := by omega
  rw [fetch, if_neg hinside, hnext, hpc, hmem, hbytes r hrx, hbytes q hq]

end Sys2Proof.Machine
end

section
/-! PROOFS. DRW (44_display R232): the sprite is one list of bits at distinct pixels, so that drawing it inverts the
pixels under its bits of 1 and nothing else, and drawing it again undoes it. -/

namespace Sys2Proof.Machine

/-! ### The sprite as a list of bits -/

/-- The coordinate DRW reads from Vr, both readings of `VF_ALIAS` (41_register_alu R131). -/
def State.coord (s : State) (r : Reg) : Nat :=
  if r = flagReg ∧ s.cfg.vfAlias = .sequential then 0 else (s.getV r).toNat

theorem coordState_getV_toNat (s : State) (r : Reg) : ((coordState s).getV r).toNat = s.coord r := by
  rw [coordState_getV, State.coord, apply_ite BitVec.toNat]
  rfl

/-- The pixels DRW Vx,Vy,n visits, with their bits. -/
def State.sprite (s : State) (x y : Reg) (n : Nibble) : List ((Nat × Nat) × Bool) :=
  spriteBits s.cfg (s.coord x) (s.coord y) 0 (s.bytesAtI n.val)

/-- A bit of 1 of the sprite falls on the pixel. -/
def State.hits (s : State) (x y : Reg) (n : Nibble) (p : Nat × Nat) : Prop :=
  ∃ row b : Nat, row < n.val ∧ b < 8 ∧
    p = ((s.coord x + b) % s.cfg.width, (s.coord y + row) % s.cfg.height) ∧
    (Memory.read s.mem (dataAddr s 0 + row)).getLsbD (7 - b) = true

theorem mem_sprite_iff_hits (s : State) (x y : Reg) (n : Nibble) (p : Nat × Nat) :
    (p, true) ∈ s.sprite x y n ↔ s.hits x y n p := by
  simp only [State.sprite, mem_spriteBits, State.bytesAtI, List.length_map, List.length_range, List.getElem_map,
    List.getElem_range, Nat.zero_add, Prod.mk.injEq, eq_comm (a := true)]
  constructor
  · rintro ⟨row, hrow, b, hb, hp, hbit⟩
    exact ⟨row, b, hrow, hb, hp, hbit⟩
  · rintro ⟨row, b, hrow, hb, hp, hbit⟩
    exact ⟨row, hrow, b, hb, hp, hbit⟩

theorem drawn_eq_drawList (s : State) (x y : Reg) (n : Nibble) :
    s.drawn x y n = drawList (s.sprite x y n) (s.fb, false) := by
  rw [State.drawn, drawRows_eq_drawList, coordState_getV_toNat, coordState_getV_toNat, State.sprite]

section
variable {s : State} (hw : 8 ≤ s.cfg.width) (hh : 16 ≤ s.cfg.height) (x y : Reg) (n : Nibble)
include hw hh

theorem sprite_nodup : ((s.sprite x y n).map Prod.fst).Nodup :=
  spriteBits_nodup s.cfg _ _ _ hw hh 0 (by simp [State.bytesAtI])

theorem drawn_lit (p : Nat × Nat) :
    Fb.lit (s.drawn x y n).1 p = (Fb.lit s.fb p ^^ decide ((p, true) ∈ s.sprite x y n)) := by
  rw [drawn_eq_drawList, drawList_lit _ _ (sprite_nodup hw hh x y n)]

theorem drawn_lit_of_hits {p : Nat × Nat} (hp : s.hits x y n p) :
    Fb.lit (s.drawn x y n).1 p = !Fb.lit s.fb p := by
  rw [drawn_lit hw hh, decide_eq_true ((mem_sprite_iff_hits s x y n p).mpr hp), Bool.xor_true]

theorem drawn_lit_of_not_hits {p : Nat × Nat} (hp : ¬ s.hits x y n p) :
    Fb.lit (s.drawn x y n).1 p = Fb.lit s.fb p := by
  rw [drawn_lit hw hh, decide_eq_false (mt (mem_sprite_iff_hits s x y n p).mp hp), Bool.xor_false]

/-- The collision is a lit pixel under a bit of 1. -/
theorem drawn_collision_iff : (s.drawn x y n).2 = true ↔ ∃ p, s.hits x y n p ∧ Fb.lit s.fb p = true := by
  rw [drawn_eq_drawList, drawList_collision _ _ (sprite_nodup hw hh x y n), Bool.false_or, List.any_eq_true]
  simp only [← mem_sprite_iff_hits, Bool.and_eq_true]
  constructor
  · rintro ⟨⟨p, b⟩, hmem, rfl, hlit⟩
    exact ⟨p, hmem, hlit⟩
  · rintro ⟨p, hmem, hlit⟩
    exact ⟨(p, true), hmem, rfl, hlit⟩

/-- DRW changes no pixel but those under a bit of 1. -/
theorem drw_changesOnly : changesOnly
    (fun q => q = .pc ∨ q = .redraw ∨ q = .reg flagReg ∨ ∃ p, s.hits x y n p ∧ q = .pixel p) s
    (applyEffect (effectOf (.drw x y n) s) (writesOf (.drw x y n) s)) := fun q hq => by
  by_cases hpixel : ∃ p, q = .pixel p
  · obtain ⟨p, rfl⟩ := hpixel
    have hmiss : ¬ s.hits x y n p := fun hp => hq (.inr (.inr (.inr ⟨p, hp, rfl⟩)))
    exact (congrArg (Fb.lit · p) (applyEffect_fb _ _)).trans (drawn_lit_of_not_hits hw hh x y n hmiss)
  · refine effect_changesOnly (.drw x y n) s q fun hmay => ?_
    unfold mayWrite at hmay
    tauto

end

/-! ### The two statements -/

/-- Settles O55: the pixels the sprite's bits of 1 fall on are distinct, so each is inverted once, and tested as it was
before the drawing. -/
theorem drwXorsTheSprite : Obligations.DrwXorsTheSprite := by
  intro s x y n a coord hit
  constructor
  · intro hfits hw hh
    have hfault : rangeFault s n.val = none := rangeFault_eq_none_iff.mpr (by
      simp only [a, dataAddr, memSize] at hfits ⊢
      omega)
    refine endsNext_of_noFault (i := .drw x y n) hfault
      ⟨fun p hp => drawn_lit_of_hits hw hh x y n hp, fun hlit => ?_, fun hdark => ?_, rfl, rfl,
        drw_changesOnly hw hh x y n⟩
    · have hcollision : (s.drawn x y n).2 = true := (drawn_collision_iff hw hh x y n).mpr hlit
      simp [writesOf, hcollision, flagByte]
    · have hcollision : (s.drawn x y n).2 = false := by
        rw [← Bool.not_eq_true, drawn_collision_iff hw hh]
        rintro ⟨p, hp, hlit⟩
        simp [hdark p hp] at hlit
      simp [writesOf, hcollision, flagByte]
  · exact fun hn hgt => exec_eq_fault_iff.mpr (rangeFault_eq_some_iff.mpr ⟨hn, hgt, rfl⟩)

/-- The state DRW leaves, pc apart, has the sprite it drew, if VF gave none of the coordinates. -/
theorem sprite_after_drw {s t : State} {x y : Reg} {n : Nibble} (h : exec (.drw x y n) s = .next t)
    (hcoord : (x ≠ flagReg ∧ y ≠ flagReg) ∨ s.cfg.vfAlias = .sequential) : t.sprite x y n = s.sprite x y n := by
  obtain ⟨-, rfl⟩ := exec_next h
  have hreg : ∀ r : Reg, r ≠ flagReg ∨ s.cfg.vfAlias = .sequential →
      (applyEffect (effectOf (.drw x y n) s) (writesOf (.drw x y n) s)).coord r = s.coord r := fun r hr => by
    obtain hr | hr := hr <;> by_cases hvf : r = flagReg <;> simp_all [State.coord, writesOf]
  rw [State.sprite, hreg x (hcoord.imp_left And.left), hreg y (hcoord.imp_left And.right)]
  rfl

/-- Settles O56: the second drawing inverts the same pixels. -/
theorem drawingTwiceRestoresTheScreen : Obligations.DrawingTwiceRestoresTheScreen := by
  intro s t x y n hw hh hcoord h
  have hsprite := sprite_after_drw h hcoord
  obtain ⟨hfault, ht⟩ := exec_next h
  have hfb : t.fb = (s.drawn x y n).1 := ht ▸ rfl
  have hcfg : t.cfg = s.cfg := ht ▸ rfl
  have hfault' : faultOf (.drw x y n) t = none := ht ▸ hfault
  refine endsNext_of_noFault (i := .drw x y n) hfault' fun p => ?_
  calc Fb.lit (t.drawn x y n).1 p
      = (Fb.lit t.fb p ^^ decide ((p, true) ∈ t.sprite x y n)) := drawn_lit (hcfg ▸ hw) (hcfg ▸ hh) x y n p
    _ = ((Fb.lit s.fb p ^^ decide ((p, true) ∈ s.sprite x y n)) ^^ decide ((p, true) ∈ s.sprite x y n)) := by
        rw [hsprite, hfb, drawn_lit hw hh]
    _ = Fb.lit s.fb p := by rw [Bool.xor_assoc, Bool.xor_self, Bool.xor_false]

end Sys2Proof.Machine
end

section
/-! PROOFS. Reset, the glyph load and the boot (10_state R37; 70_reset_and_hazards R350, R351, R354, R355). -/

namespace Sys2Proof.Machine

/-! ### Reset and the glyph load -/

theorem reset_getV (r : Reg) : State.reset.getV r = 0 := Vector.getElem_replicate ..

theorem reset_slot (j : Fin 12) : State.reset.stack[j.val] = 0 := Vector.getElem_replicate ..

theorem applyReset_getV (s : State) (r : Reg) : (applyReset s).getV r = 0 := by
  simpa only [State.getV, applyReset_v] using reset_getV r

theorem applyReset_slot (s : State) (j : Fin 12) : (applyReset s).stack[j.val] = 0 := by
  simpa only [applyReset_stack] using reset_slot j

/-- Settles O57: reset's fields are written out, and the memory of a machine reset is zero before the glyph load. -/
theorem resetValues : Obligations.ResetValues :=
  ⟨⟨rfl, rfl, reset_getV, reset_slot, rfl, rfl, rfl, rfl, rfl, rfl, fun _ => rfl, rfl, rfl, fun _ _ => rfl,
      fun _ => unlistedByte_above, rfl⟩,
    fun s => ⟨applyReset_pc s, applyReset_sp s, applyReset_getV s, applyReset_slot s, applyReset_i s, applyReset_dt s,
      applyReset_st s, applyReset_keys s, applyReset_wait s, applyReset_waitReg s,
      fun p => congrArg (Fb.lit · p) (applyReset_fb s), applyReset_redraw s, applyReset_fault s, applyReset_read s,
      applyReset_cfg s, applyReset_inputs s, applyReset_inputCount s⟩⟩

/-- Settles O59: the load is one run of 80 writes from address 0. -/
theorem loadGlyphsWritesTheFont : Obligations.LoadGlyphsWritesTheFont := by
  refine fun s => ⟨fun k hk => (loadGlyphs_read s k).trans (dif_pos hk), ?_⟩
  refine changesOnly_setMem_writeSeq (fun k hk => ⟨k, by simpa using hk, ?_⟩) (changesOnly_refl _ s)
  rw [Nat.zero_add]

/-! ### The boot -/

/-- The memory the boot loads the program into: zeros, and then the glyphs of the default font. -/
def bootMemory : List Host.Cell :=
  Memory.writeSeq (Memory.writeSeq [] 0 (List.replicate 80 0)) 0 fontBytes

theorem loadGlyphs_default (mem : List Host.Cell) :
    loadGlyphs { State.reset.setMem mem with cfg := defaultConfig } =
      State.reset.setMem (Memory.writeSeq mem 0 fontBytes) := rfl

theorem boot_eq (image : List Byte) : boot image = loadProgram image (State.reset.setMem bootMemory) := by
  rw [boot, bootWith, State.cleared, loadGlyphs_default, bootMemory]

/-- The default font is what `State.reset`, which lists nothing, reads as (log entry 19). -/
theorem bootMemory_read (a : Nat) : Memory.read bootMemory a = unlistedByte a := by
  rw [bootMemory, Memory.read_writeSeq]
  split
  · next h => exact (List.getD_eq_getElem fontBytes 0 _).symm
  · next h =>
    have hnotZeroed : ¬ (0 ≤ a ∧ a < 0 + (List.replicate 80 (0 : Byte)).length) := by simpa using h
    rw [Memory.read_writeSeq, dif_neg hnotZeroed, Memory.read_nil]

theorem bootMemory_wf : Memory.wf bootMemory = true :=
  Memory.writeSeq_wf _ _ 0 (Memory.writeSeq_wf _ [] 0 rfl (by simp [memSize])) (by simp [memSize])

/-- A memory that reads alike changes no part, however its bytes are listed. -/
theorem changesOnly_setMem_of_read {may : Part → Prop} {s : State} {mem : List Host.Cell}
    (h : ∀ a, Memory.read mem a = Memory.read s.mem a) : changesOnly may s (s.setMem mem) := fun p _ => by
  cases p with
  | byte a => exact h a
  | _ => rfl

/-- Settles O60: the image's writes keep the invariant, and are the only bytes that differ from reset's. -/
theorem bootIsResetWithTheImage : Obligations.BootIsResetWithTheImage := by
  intro image himage
  have hfits : ¬ progBase + image.length > memSize := by
    simp only [memSize, progBase]
    omega
  obtain ⟨hreset, hpc⟩ := (State.inv_iff _).mp resetMeetsTheInvariant
  have hwf := bootMemory_wf
  have hread := bootMemory_read
  rw [boot_eq]
  generalize bootMemory = mem at hwf hread ⊢
  exact ⟨_, loadProgram_fits hfits _,
    (State.inv_iff _).mpr ⟨(hreset.setMem hwf).writeSeq (Nat.le_of_not_lt hfits), hpc⟩,
    Memory.read_writeSeq_add image mem progBase,
    changesOnly_setMem_writeSeq (fun k hk => ⟨k, hk, rfl⟩) (changesOnly_setMem_of_read hread)⟩

end Sys2Proof.Machine
end
